-- ==== Sys2Proof/Config.lean ====
section
/-! DEFINITION. The implementation parameters of `00_scope.md` R3, each a named constant with the value the source states
(D25), and the one open parameter, `DIAG_PREFIX` (D14). -/

namespace Sys2Proof.Config

/-- `WORD_BITS`: the width of a Word (R3). -/
@[simp] abbrev wordBits : Nat := 16

/-- `PM_WORDS`: the length of program memory in Words (R3, R11). -/
@[simp] abbrev pmWords : Nat := 4096

/-- `SR_WORDS`: the number of system registers (R3, R12). -/
@[simp] abbrev srWords : Nat := 256

/-- `INSTRUCTION_WIDTH`: Words per instruction (R3, R60). -/
@[simp] abbrev instructionWidth : Nat := 3

/-- `OPCODE_BITS`: the width of the opcode field (R3). -/
@[simp] abbrev opcodeBits : Nat := 8

/-- `MODE_BITS`: the width of an addressing-mode header (R3). -/
@[simp] abbrev modeBits : Nat := 4

/-- The width of a byte, half a Word: the unit of the output stream (R4, R22). No parameter of R3. -/
@[simp] abbrev byteBits : Nat := 8

/-- `ACC`: the index of the accumulator (R3, R14). -/
@[simp] abbrev acc : Fin srWords := 0

/-- `PC`: the index of the program counter (R3, R15). -/
@[simp] abbrev pcReg : Fin srWords := 1

/-- `SSB`: the index of the stack-segment base pointer (R3, R16). -/
@[simp] abbrev ssb : Fin srWords := 2

/-- `DSB`: the index of the data-segment base pointer (R3, R17). -/
@[simp] abbrev dsb : Fin srWords := 3

/-- `MAX_PC`: the largest program counter whose instruction lies wholly in program memory (R3). -/
@[simp] abbrev maxPc : Nat := 1364

/-- What a word of program memory that nothing has written reads as: 0, "zero-initialized at startup" (R25, U15). -/
@[simp] abbrev pmFill : BitVec wordBits := 0

/-- `DIAG_PREFIX`: the "fixed diagnostic prefix" of syscall 1 (R3, R153), a finite list of bytes, possibly empty. OPEN in the
spec (D14, N23): a constant with no body, so that nothing can be proved of its text. Log entry 2. -/
opaque diagPrefix : List (BitVec byteBits)

end Sys2Proof.Config
end

