-- ==== Sys2Proof/Word.lean ====
section
/-! DEFINITION. The scalar types of the machine (`10_state.md` R10): the 16-bit unsigned Word, the only scalar type, and
its fields, the opcode, the header and the byte, each at its width of `Config` (R3). -/

namespace Sys2Proof

/-- A Word: "a 16-bit unsigned integer; the VM's only scalar type" (R10). -/
abbrev Word := BitVec Config.wordBits

/-- A byte: half a Word (R4), a byte of the output stream (R22) or of a program image (R205). -/
abbrev Byte := BitVec Config.byteBits

/-- An opcode (R61): "the 8-bit instruction identifier" (R3). -/
abbrev Opcode := BitVec Config.opcodeBits

/-- An addressing-mode header: a "4-bit field" (R61, R63). -/
abbrev Header := BitVec Config.modeBits

end Sys2Proof
end

