-- ==== Sys2Proof/Syntax.lean ====
section
/-! DEFINITION. The syntax of the RIVM bytecode: the raw fields of format `W3` (`30_encoding.md` R61), the resolved operands
(`00_scope.md` R6) and the instructions (R66), one constructor per row of the opcode table. -/

namespace Sys2Proof

/-- The three Words of one instruction, in address order (R60). -/
structure InstrWords where
  w0 : Word
  w1 : Word
  w2 : Word
  deriving DecidableEq, Repr

/-- The five fields of format `W3` (R61). -/
structure Fields where
  opcode : Opcode
  lmode : Header
  rmode : Header
  lval : Word
  rval : Word
  deriving DecidableEq, Repr

/-- Which of the two operands; only a label of a decode error (R80). -/
inductive Side where
  | left
  | right
  deriving DecidableEq, Repr

/-- The three addressable banks (R6, R34). -/
inductive Bank where
  /-- The window onto program memory at `x[3]` (R17, R19). -/
  | data
  /-- The window onto program memory at `x[2]` (R16, R19). -/
  | stack
  /-- The system registers (R12). -/
  | system
  deriving DecidableEq, Repr

/-- A resolved operand (R6): `Literal(v)` or `RegisterRef(bank, off)`. -/
inductive Operand where
  | literal (v : Word)
  | ref (bank : Bank) (off : Word)
  deriving DecidableEq, Repr

/-- The seven instructions (R66), each with its left and its right operand. -/
inductive Instr where
  /-- Opcode 0 (R120). -/
  | pass (left right : Operand)
  /-- Opcode 1 (R150). -/
  | syscall (left right : Operand)
  /-- Opcode 2 (R121). -/
  | move (left right : Operand)
  /-- Opcode 3 (R130). -/
  | add (left right : Operand)
  /-- Opcode 4 (R131). -/
  | subtract (left right : Operand)
  /-- Opcode 5 (R132). -/
  | multiply (left right : Operand)
  /-- Opcode 6 (R133). -/
  | divide (left right : Operand)
  deriving DecidableEq, Repr

end Sys2Proof
end

