-- ==== Sys2Proof/Machine/State.lean ====
section
/-! DEFINITION. The state of the machine (`10_state.md`), the records a halt leaves (`60_exceptions.md` R176), and the reasons
a step can stop. -/

namespace Sys2Proof.Machine

/-- The run state (R21): "two states: Running, Halted". -/
inductive RunState where
  | running
  | halted
  deriving DecidableEq, Repr

/-- The `bank` field of a bounds violation (R176): one of the three banks, or `Program` for an access that goes through
no bank (R31, R173, C11). -/
inductive AccessBank where
  | program
  | bank (b : Bank)
  deriving DecidableEq, Repr

/-- A fatal condition (R170 to R175), as the pseudocode raises it: the kind and what it names, before the step adds the
program counter and the instruction address (R106). The spec calls it a "fault"; in this model its entry is a next state
(R180), so the word `Fault` is left to the stop reasons below. -/
inductive FatalCondition where
  /-- `DecodeError(UnknownOpcode, opcode)` (R171). -/
  | unknownOpcode (opcode : Opcode)
  /-- `DecodeError(UnknownMode, side, header)` (R172). -/
  | unknownMode (side : Side) (header : Header)
  /-- `BoundsViolation(bank, offset)` (R173). -/
  | boundsViolation (bank : AccessBank) (offset : Nat)
  /-- `InvalidWriteTarget` (R174). -/
  | invalidWriteTarget
  /-- `ArithmeticError(DivisionByZero)` (R175). -/
  | divisionByZero
  deriving DecidableEq, Repr

/-- The fault record (R176), each kind with exactly the info fields of the table. -/
inductive FaultRecord where
  /-- Code 1. `byte` is `w0[15:8]`. -/
  | unknownOpcode (pc : Word) (byte : Opcode)
  /-- Code 2. `byte` is the offending header, 4 to 15. -/
  | unknownMode (pc : Word) (side : Side) (byte : Byte)
  /-- Code 3. `instructionAddress` is `3 * pc`. -/
  | boundsViolation (pc : Word) (instructionAddress : Nat) (bank : AccessBank) (offset : Nat)
  /-- Code 4. -/
  | invalidWriteTarget (pc : Word)
  /-- Code 5. -/
  | divisionByZero (pc : Word)
  deriving DecidableEq, Repr

/-- Why the machine is halted (R23). The one place a cause is kept (D13). -/
inductive HaltCause where
  /-- `None`: while the machine is Running. -/
  | none
  /-- `Exit`: syscall selector 0 terminated the run (R151). -/
  | exit
  /-- `Fault(kind, info)`: a fatal condition (R180). -/
  | fault (r : FaultRecord)
  deriving DecidableEq, Repr

/-- The contents of program memory: pairs of a word address and a Word, addresses strictly rising, no entry equal to what
an unlisted address reads as (`Config.pmFill`) and none outside the array (`Memory.wf`). The unit is the Word because
nothing smaller has an address (R30, R38); log entry 1. -/
abbrev Memory := List (Nat × Word)

/-- The whole state (PM, x, run_state, halt_cause, out) of `10_state.md`. -/
structure State where
  /-- Program memory PM (R11). -/
  pm : Memory
  /-- The system registers `x[0]` to `x[255]` (R12); `x[1]` is the program counter (R15). -/
  x : Vector Word Config.srWords
  /-- `run_state` (R21). -/
  runState : RunState
  /-- `halt_cause` (R23). -/
  haltCause : HaltCause
  /-- `out`, the bytes emitted since reset, oldest first (R22). -/
  out : List Byte
  deriving DecidableEq, Repr

/-- The machine right after reset (R25, R200). -/
def State.reset : State where
  pm := []
  x := Vector.replicate Config.srWords 0
  runState := .running
  haltCause := .none
  out := []

/-- Why a step stops. The spec's own fatal conditions are not among them: their entry is a next state (R180). -/
inductive Fault where
  /-- Raised by `step` alone, in a Halted machine: "When `run_state = Halted` no step is defined" (R106; also R21, R105,
  R181). Safe: the machine stops where the hardware takes no step. Log entry 3. -/
  | halted
  deriving DecidableEq, Repr

/-- Why a step has no meaning. -/
inductive Refusal where
  /-- An instruction rejected by name in `exec`, raised by no arm of this model: every instruction has its meaning. Safe. -/
  | notModelled (mnemonic : String)
  deriving DecidableEq, Repr

end Sys2Proof.Machine
end

