-- ==== Sys2Proof/Machine/Flags.lean ====
section
/-! DEFINITION. The result computations of the four arithmetic instructions (`43_arithmetic.md`). The machine has no flags of any
kind (`10_state.md` R20): the result Word is all an instruction records, and the carry, the borrow, the high half of a
product and the remainder are lost. -/

namespace Sys2Proof.Machine

/-- `trunc16(n)`: `n mod 2^16`, for a negative integer the non-negative residue (R4). -/
def trunc16 (n : Int) : Word := BitVec.ofInt Config.wordBits n

/-- `trunc16(a + b)` (R130, D1). -/
def addWords (a b : Word) : Word := trunc16 ((a.toNat : Int) + b.toNat)

/-- `trunc16(a - b)` (R131, D1). -/
def subWords (a b : Word) : Word := trunc16 ((a.toNat : Int) - b.toNat)

/-- `trunc16(a * b)` (R132, D1). -/
def mulWords (a b : Word) : Word := trunc16 ((a.toNat : Int) * b.toNat)

/-- `floor(a / b)`, or the arithmetic error for a zero divisor (R133, D10). -/
def divWords (a b : Word) : Except FatalCondition Word :=
  if b = 0 then .error .divisionByZero else .ok (trunc16 ((a.toNat / b.toNat : Nat) : Int))

end Sys2Proof.Machine
end

