-- ==== Sys2Proof/WellFormed.lean ====
section
/-! DEFINITION. Which field values are an instruction at all (`30_encoding.md` R65 to R68). The only ill-formed values are
a header above 3, in either position, and an opcode above 6; every raw value is legal in every position (R64, R69), so an
`Instr`, whose constructors are the seven opcodes and whose operands are the four operand forms, has nothing left to check. -/

namespace Sys2Proof

/-- A header is one of the four addressing modes (R63, R68). -/
def headerOk (mode : Header) : Bool := mode.toNat ≤ 3

/-- The left header is an addressing mode (R68). -/
def Fields.leftHeaderOk (f : Fields) : Bool := headerOk f.lmode

/-- The right header is an addressing mode (R68). -/
def Fields.rightHeaderOk (f : Fields) : Bool := headerOk f.rmode

/-- The opcode is one of the seven (R66, R67). -/
def Fields.opcodeOk (f : Fields) : Bool := f.opcode.toNat ≤ 6

/-- The fields are those of an instruction (R65). -/
def Fields.wellFormed (f : Fields) : Bool := f.leftHeaderOk && f.rightHeaderOk && f.opcodeOk

end Sys2Proof
end

