-- ==== Sys2Proof/Decode.lean ====
section
/-! DEFINITION. Decoding and encoding (`30_encoding.md` R60 to R69, `40_operand_resolution.md` R80, `41_fetch_dispatch.md` R101
to R103). Decoding is a pure, total function of the three Words (R65). -/

namespace Sys2Proof

/-- `w[15:8]`, the high byte of a Word (R4). -/
def hiByte (w : Word) : Byte := w.extractLsb' Config.byteBits Config.byteBits

/-- `w[7:0]`, the low byte of a Word (R4). -/
def loByte (w : Word) : Byte := w.extractLsb' 0 Config.byteBits

/-- The Word of a high and a low byte, `high ‖ low` (R4, R205). -/
def wordOfBytes (hi lo : Byte) : Word := hi ++ lo

/-- The field split (R61, R101): opcode the high byte of w0, the LEFT header its bits 7:4, the RIGHT header its bits 3:0
(D5, log entry 6), the raw values w1 and w2. With `wordsOfFields` the one place of that assignment (N14). -/
def fieldsOfWords (ws : InstrWords) : Fields where
  opcode := ws.w0.extractLsb' (2 * Config.modeBits) Config.opcodeBits
  lmode := ws.w0.extractLsb' Config.modeBits Config.modeBits
  rmode := ws.w0.extractLsb' 0 Config.modeBits
  lval := ws.w1
  rval := ws.w2

/-- The Words of given fields: `w0 = opcode * 256 + lmode * 16 + rmode` (R61). -/
def wordsOfFields (f : Fields) : InstrWords where
  w0 := f.opcode ++ f.lmode ++ f.rmode
  w1 := f.lval
  w2 := f.rval

/-- Why three Words are no instruction (R65, R67, R68). -/
inductive DecodeError where
  /-- `DecodeError(UnknownMode, side, header)` (R68). -/
  | unknownMode (side : Side) (header : Header)
  /-- `DecodeError(UnknownOpcode, opcode)` (R67). -/
  | unknownOpcode (opcode : Opcode)
  deriving DecidableEq, Repr

/-- `Resolve(mode, value, side)` (R80). It reads no state and adds no base pointer (R81). -/
def resolve (mode : Header) (value : Word) (side : Side) : Except DecodeError Operand :=
  match mode.toNat with
  | 0 => .ok (.literal value)
  | 1 => .ok (.ref .data value)
  | 2 => .ok (.ref .stack value)
  | 3 => .ok (.ref .system value)
  | _ => .error (.unknownMode side mode)

/-- The dispatch table (R66, R103): which instruction an opcode selects for two resolved operands. -/
def lookupOpcode (opcode : Opcode) (left right : Operand) : Except DecodeError Instr :=
  match opcode.toNat with
  | 0 => .ok (.pass left right)
  | 1 => .ok (.syscall left right)
  | 2 => .ok (.move left right)
  | 3 => .ok (.add left right)
  | 4 => .ok (.subtract left right)
  | 5 => .ok (.multiply left right)
  | 6 => .ok (.divide left right)
  | _ => .error (.unknownOpcode opcode)

/-- Decoding of the fields: the left header is resolved first, then the right one, then the opcode is looked up (R65,
R102, D8). -/
def decodeFields (f : Fields) : Except DecodeError Instr := do
  let left ← resolve f.lmode f.lval .left
  let right ← resolve f.rmode f.rval .right
  lookupOpcode f.opcode left right

/-- Decoding of three Words (R65): total, each failure under its own name. -/
def decode (ws : InstrWords) : Except DecodeError Instr := decodeFields (fieldsOfWords ws)

/-! ### The encoder, from the same tables (R61, R63, R66) -/

/-- The header of an operand form (R63). -/
def Operand.mode : Operand → Header
  | .literal _ => 0
  | .ref .data _ => 1
  | .ref .stack _ => 2
  | .ref .system _ => 3

/-- The raw value of an operand (R64). -/
def Operand.raw : Operand → Word
  | .literal v => v
  | .ref _ off => off

/-- The opcode of an instruction (R66). -/
def Instr.opcode : Instr → Opcode
  | .pass _ _ => 0
  | .syscall _ _ => 1
  | .move _ _ => 2
  | .add _ _ => 3
  | .subtract _ _ => 4
  | .multiply _ _ => 5
  | .divide _ _ => 6

/-- The left operand of an instruction. -/
def Instr.left : Instr → Operand
  | .pass l _ => l
  | .syscall l _ => l
  | .move l _ => l
  | .add l _ => l
  | .subtract l _ => l
  | .multiply l _ => l
  | .divide l _ => l

/-- The right operand of an instruction. -/
def Instr.right : Instr → Operand
  | .pass _ r => r
  | .syscall _ r => r
  | .move _ r => r
  | .add _ r => r
  | .subtract _ r => r
  | .multiply _ r => r
  | .divide _ r => r

/-- The fields that encode an instruction (R72). -/
def encodeFields (i : Instr) : Fields where
  opcode := i.opcode
  lmode := i.left.mode
  rmode := i.right.mode
  lval := i.left.raw
  rval := i.right.raw

/-- The three Words that encode an instruction (R72). -/
def encode (i : Instr) : InstrWords := wordsOfFields (encodeFields i)

/-! ### The opcode table's numbering -/

/-- The bits of one instruction (R60, R62). -/
@[simp] abbrev instrBits : Nat := Config.instructionWidth * Config.wordBits

/-- The three Words of an instruction whose bits are `w`, numbered as `opcode_table.json` numbers them: the 48-bit view
`w0 ‖ w1 ‖ w2` of R62, w0 most significant (log entry 14). When `nbits` is less than 48 the bits given are the first ones in
address order and the rest of the instruction is zero. -/
def tableWords (nbits w : Nat) : InstrWords :=
  let v := (w % 2 ^ nbits) * 2 ^ (instrBits - nbits) % 2 ^ instrBits
  { w0 := BitVec.ofNat Config.wordBits (v / 2 ^ (2 * Config.wordBits))
    w1 := BitVec.ofNat Config.wordBits (v / 2 ^ Config.wordBits)
    w2 := BitVec.ofNat Config.wordBits v }

/-- The instruction the decoder reads from a word of the opcode table; none where it refuses. -/
def decodeTableWord (nbits w : Nat) : Option Instr :=
  match decode (tableWords nbits w) with
  | .ok i => some i
  | .error _ => none

end Sys2Proof
end

