-- ==== Sys2Proof/Machine/Ops.lean ====
section
/-! DEFINITION. The shared operations: the two storage arrays, the banks and their bounds (`20_memory.md`), output, halting and
the entry of a fatal condition (`60_exceptions.md` R180), fetch and decode (`41_fetch_dispatch.md` R100, R102), the advance
(R107). -/

namespace Sys2Proof.Machine

/-! ### Program memory as a canonical list -/

/-- The canonical form: addresses strictly rising, no entry equal to what an unlisted address reads as, none outside the
array. Equal contents are then equal lists. -/
abbrev Memory.wf (m : Memory) : Prop :=
  m.Pairwise (fun c d => c.1 < d.1) ∧ ∀ c ∈ m, c.2 ≠ Config.pmFill ∧ c.1 < Config.pmWords

/-- The Word at word address `a`; an unlisted address reads as 0 (R25). -/
def Memory.read : Memory → Nat → Word
  | [], _ => Config.pmFill
  | c :: m, a => if c.1 = a then c.2 else Memory.read m a

/-- The contents without any entry for `a`. -/
def Memory.eraseCell (m : Memory) (a : Nat) : Memory := m.filter (fun c => c.1 ≠ a)

/-- Put an entry for `a` at its place in address order. -/
def Memory.insertCell : Memory → Nat → Word → Memory
  | [], a, v => [(a, v)]
  | c :: m, a, v => if a < c.1 then (a, v) :: c :: m else c :: Memory.insertCell m a v

/-- `PM[a] <- v` on the contents: exactly one cell changes (R32). -/
def Memory.write (m : Memory) (a : Nat) (v : Word) : Memory :=
  if v = Config.pmFill then m.eraseCell a else Memory.insertCell (m.eraseCell a) a v

/-! ### System registers -/

/-- `x[i]` (R5). -/
def State.getReg (s : State) (i : Fin Config.srWords) : Word := s.x.get i

/-- `x[i] <- v` (R5). Every register is plain read-write storage (R13). -/
def State.setReg (s : State) (i : Fin Config.srWords) (v : Word) : State :=
  { s with x := s.x.set i.val v i.isLt }

/-- `pc`, another name for `x[1]` (R5, R15). -/
def State.pc (s : State) : Word := s.getReg Config.pcReg

/-- Replace the contents of program memory. -/
def State.setPm (s : State) (m : Memory) : State := { s with pm := m }

/-! ### Locations: the cells of the two arrays -/

/-- A cell of one of the two disjoint arrays (R30), by its index; it need not exist. -/
inductive Loc where
  | reg (i : Nat)
  | pm (a : Nat)
  deriving DecidableEq, Repr

/-- The location lies inside its array (R35). -/
def Loc.inArray : Loc → Bool
  | .reg i => i < Config.srWords
  | .pm a => a < Config.pmWords

/-- The Word a location holds; none outside the array. -/
def State.readLoc (s : State) : Loc → Option Word
  | .reg i => if h : i < Config.srWords then some (s.getReg ⟨i, h⟩) else none
  | .pm a => if a < Config.pmWords then some (s.pm.read a) else none

/-- The state with one location written; none outside the array. -/
def State.writeLoc (s : State) : Loc → Word → Option State
  | .reg i, v => if h : i < Config.srWords then some (s.setReg ⟨i, h⟩ v) else none
  | .pm a, v => if a < Config.pmWords then some (s.setPm (s.pm.write a v)) else none

/-! ### Memory and bank accesses -/

/-- `MemRead(addr, 1)` (R31); the address is an exact natural number (R33). -/
def memRead (s : State) (a : Nat) : Except FatalCondition Word :=
  match s.readLoc (.pm a) with
  | some w => .ok w
  | none => .error (.boundsViolation .program a)

/-- `MemWrite(addr, 1, v)` (R32). -/
def memWrite (s : State) (a : Nat) (v : Word) : Except FatalCondition State :=
  match s.writeLoc (.pm a) v with
  | some t => .ok t
  | none => .error (.boundsViolation .program a)

/-- `BankTarget(bank, off)` (R34): the base pointer is read at the access, and the sum is exact (R33, D6). -/
def bankTarget (s : State) : Bank → Nat → Loc
  | .system, off => .reg off
  | .stack, off => .pm ((s.getReg Config.ssb).toNat + off)
  | .data, off => .pm ((s.getReg Config.dsb).toNat + off)

/-- An access is in bounds (R35). -/
def inBounds (s : State) (bank : Bank) (off : Nat) : Bool := (bankTarget s bank off).inArray

/-- `BankRead(bank, off)` (R36). -/
def bankRead (s : State) (bank : Bank) (off : Nat) : Except FatalCondition Word :=
  match s.readLoc (bankTarget s bank off) with
  | some w => .ok w
  | none => .error (.boundsViolation (.bank bank) off)

/-- `BankWrite(bank, off, v)` (R37). -/
def bankWrite (s : State) (bank : Bank) (off : Nat) (v : Word) : Except FatalCondition State :=
  match s.writeLoc (bankTarget s bank off) v with
  | some t => .ok t
  | none => .error (.boundsViolation (.bank bank) off)

/-! ### Output, halting, and the entry of a fatal condition -/

/-- `Emit` of each byte in order (R22). The output never blocks (log entry 11). -/
def State.emit (s : State) (bs : List Byte) : State := { s with out := s.out ++ bs }

/-- The transition to Halted with its cause, set together (R23). -/
def State.halt (s : State) (c : HaltCause) : State := { s with runState := .halted, haltCause := c }

/-- The fault record of a condition raised at program counter `pc` (R106, R176). A header is reported zero-extended to a
byte (R172, C6). -/
def FatalCondition.record (c : FatalCondition) (pc : Word) : FaultRecord :=
  match c with
  | .unknownOpcode op => .unknownOpcode pc op
  | .unknownMode side header => .unknownMode pc side (header.setWidth Config.byteBits)
  | .boundsViolation bank offset => .boundsViolation pc (Config.instructionWidth * pc.toNat) bank offset
  | .invalidWriteTarget => .invalidWriteTarget pc
  | .divisionByZero => .divisionByZero pc

/-- TAKING A FATAL CONDITION, the one shared operation (R180): `run_state <- Halted`, `halt_cause <- Fault(F, info)`, and
nothing else; `x[1]` is not advanced. The record's pc is `x[1]` as it stands, which no instruction has written before it
raises (R109, R179; log entry 5). There is no return from it (R181). -/
def State.raise (s : State) (c : FatalCondition) : State := s.halt (.fault (c.record s.pc))

/-- The numeric cause code of a record (R176, D11). -/
def FaultRecord.code : FaultRecord → Nat
  | .unknownOpcode _ _ => 1
  | .unknownMode _ _ _ => 2
  | .boundsViolation _ _ _ _ => 3
  | .invalidWriteTarget _ => 4
  | .divisionByZero _ => 5

/-- The `pc` field of a record (R176). -/
def FaultRecord.pc : FaultRecord → Word
  | .unknownOpcode pc _ => pc
  | .unknownMode pc _ _ => pc
  | .boundsViolation pc _ _ _ => pc
  | .invalidWriteTarget pc => pc
  | .divisionByZero pc => pc

/-- The numeric cause code the status interface presents (R176, R202): 0 for `None` and `Exit`. -/
def HaltCause.code : HaltCause → Nat
  | .none => 0
  | .exit => 0
  | .fault r => r.code

/-- The outcome of a handler whose pseudocode either completes in a state or raises (R104, R180). -/
def complete (s : State) (r : Except FatalCondition State) : Host.Outcome State Fault Refusal :=
  match r with
  | .ok t => .next t
  | .error c => .next (s.raise c)

/-! ### Fetch, decode, advance -/

/-- `Fetch(p)` (R100): the three Words at the exact address `p * 3`, in ascending order, all of them before anything is
decoded (D7). -/
def fetch (s : State) (p : Word) : Except FatalCondition InstrWords := do
  let ia := p.toNat * Config.instructionWidth
  let w0 ← memRead s ia
  let w1 ← memRead s (ia + 1)
  let w2 ← memRead s (ia + 2)
  return { w0, w1, w2 }

/-- The fatal condition of a decode error (R171, R172). -/
def decodeFatal : DecodeError → FatalCondition
  | .unknownMode side header => .unknownMode side header
  | .unknownOpcode opcode => .unknownOpcode opcode

/-- `Decode(p)` and the opcode lookup of `Dispatch` (R102, R103): the instruction at index `p`, or the first fault met. -/
def fetchDecode (s : State) (p : Word) : Except FatalCondition Instr :=
  match fetch s p with
  | .error c => .error c
  | .ok ws =>
    match decode ws with
    | .error e => .error (decodeFatal e)
    | .ok i => .ok i

/-- The advance, `x[1] <- trunc16(x[1] + 1)` (R107): `x[1]` is read afresh, and 0xFFFF goes to 0 (D4). -/
def State.advance (s : State) : State := s.setReg Config.pcReg (s.pc + 1)

/-- The end of a step (R106): the advance follows a handler that returned `Continue`, and neither the terminating syscall
nor a fault. A handler's `Terminate` and a fault have already made the machine Halted (log entry 4). -/
def finishStep (t : State) : State :=
  match t.runState with
  | .running => t.advance
  | .halted => t

/-! ### Placing an instruction -/

/-- The three Words of an instruction stored at the program counter's slot. -/
def placeAtPc (s : State) (ws : InstrWords) : State :=
  let ia := s.pc.toNat * Config.instructionWidth
  s.setPm (((s.pm.write ia ws.w0).write (ia + 1) ws.w1).write (ia + 2) ws.w2)

/-- A state from which the next step fetches: Running, and the program counter not above `MAX_PC` (R100, R106). A state
that is so already, `State.reset` among them, is left alone. -/
def readyToFetch (s : State) : State :=
  let r := match s.runState with
    | .running => s
    | .halted => { s with runState := .running, haltCause := .none }
  if r.pc.toNat ≤ Config.maxPc then r else r.setReg Config.pcReg 0

end Sys2Proof.Machine
end

