-- ==== Sys2Proof/Machine/Operands.lean ====
section
/-! DEFINITION. Operand read and write (`40_operand_resolution.md` R82 to R84) and the string of syscall 1 (`44_syscall.md`
R153). Resolution itself, `Resolve` (R80), is `Sys2Proof.resolve`. -/

namespace Sys2Proof.Machine

/-- `Get(op)` (R82): the literal, or the referenced bank's cell. -/
def getOperand (s : State) : Operand → Except FatalCondition Word
  | .literal v => .ok v
  | .ref bank off => bankRead s bank off.toNat

/-- `Set(op, v)` (R83, R84): writes the referenced bank's cell; a Literal is never a write target. -/
def setOperand (s : State) : Operand → Word → Except FatalCondition State
  | .literal _, _ => .error .invalidWriteTarget
  | .ref bank off, v => bankWrite s bank off.toNat v

/-- How many cells of a bank lie at offset `off` or above, inside the backing array (R35): the bound of the string loop. -/
def cellsFrom (s : State) (bank : Bank) (off : Nat) : Nat :=
  match bankTarget s bank off with
  | .reg i => Config.srWords - i
  | .pm a => Config.pmWords - a

/-- The loop of R153 from cell `off` on: the bytes emitted, and the bounds violation if one ends it. `n` is the number of
cells left in the bank; with none left the read at `off` is out of bounds, which is what R36 raises there. -/
def stringFrom (s : State) (bank : Bank) : Nat → Nat → List Byte × Option FatalCondition
  | 0, off => ([], some (.boundsViolation (.bank bank) off))
  | n + 1, off =>
    match bankRead s bank off with
    | .error c => ([], some c)
    | .ok w =>
      if hiByte w = 0 then ([], none)
      else if loByte w = 0 then ([hiByte w], none)
      else
        let rest := stringFrom s bank n (off + 1)
        (hiByte w :: loByte w :: rest.1, rest.2)

/-- The string that starts at a reference (R153), without the prefix. -/
def stringAt (s : State) (bank : Bank) (off : Nat) : List Byte × Option FatalCondition :=
  stringFrom s bank (cellsFrom s bank off) off

end Sys2Proof.Machine
end

