-- ==== Sys2Proof/Machine/Arithmetic.lean ====
section
/-! DEFINITION. `add`, `subtract`, `multiply`, `divide` (`43_arithmetic.md`). The result is `right OP left`. -/

namespace Sys2Proof.Machine

/-- The common shape of the four (R130 to R133): `a <- Get(right)`, `b <- Get(left)`, the computation, `Set(right, ...)`, in
this order (R109, D9). -/
def execBinary (op : Word → Word → Except FatalCondition Word) (left right : Operand) (s : State) :
    Host.Outcome State Fault Refusal :=
  complete s do
    let a ← getOperand s right
    let b ← getOperand s left
    let v ← op a b
    setOperand s right v

/-- `add left, right` (R130). -/
def execAdd (left right : Operand) (s : State) : Host.Outcome State Fault Refusal :=
  execBinary (fun a b => .ok (addWords a b)) left right s

/-- `subtract left, right` (R131). -/
def execSubtract (left right : Operand) (s : State) : Host.Outcome State Fault Refusal :=
  execBinary (fun a b => .ok (subWords a b)) left right s

/-- `multiply left, right` (R132). -/
def execMultiply (left right : Operand) (s : State) : Host.Outcome State Fault Refusal :=
  execBinary (fun a b => .ok (mulWords a b)) left right s

/-- `divide left, right` (R133): the zero test stands between the reads and the write. -/
def execDivide (left right : Operand) (s : State) : Host.Outcome State Fault Refusal :=
  execBinary divWords left right s

end Sys2Proof.Machine
end

