-- ==== Sys2Proof/Machine/PassMove.lean ====
section
/-! DEFINITION. `pass` and `move` (`42_pass_move.md`). A meaning is the handler of its instruction; the advance is the step's
(R104, R107). -/

namespace Sys2Proof.Machine

/-- `pass left, right` (R120): no operand is read. -/
def execPass (_left _right : Operand) (s : State) : Host.Outcome State Fault Refusal := .next s

/-- `move left, right` (R121): `v <- Get(left)`, then `Set(right, v)`. -/
def execMove (left right : Operand) (s : State) : Host.Outcome State Fault Refusal :=
  complete s do
    let v ← getOperand s left
    setOperand s right v

end Sys2Proof.Machine
end

