-- ==== Sys2Proof/Machine/Syscall.lean ====
section
/-! DEFINITION. `syscall` (`44_syscall.md`): termination and output. -/

namespace Sys2Proof.Machine

/-- `Output(right)` of selector 1: a Literal emits its low byte (R152); a reference emits `DIAG_PREFIX`, then the string, and a
string that runs out of its bank raises the bounds violation with the bytes so far kept (R153, D14, D15). -/
def output (s : State) : Operand → State
  | .literal v => s.emit [loByte v]
  | .ref bank off =>
    let str := stringAt s bank off.toNat
    let t := s.emit (Config.diagPrefix ++ str.1)
    match str.2 with
    | none => t
    | some c => t.raise c

/-- `syscall left, right` (R150): the selector is the whole Word `Get(left)` (D17); 0 terminates (R151), 1 writes to the
output, every other value does nothing (R154). `Terminate` is the transition to Halted with cause `Exit` (R106; log entry 4). -/
def execSyscall (left right : Operand) (s : State) : Host.Outcome State Fault Refusal :=
  complete s do
    let sel ← getOperand s left
    if sel = 0 then .ok (s.halt .exit)
    else if sel = 1 then .ok (output s right)
    else .ok s

end Sys2Proof.Machine
end

