-- ==== Sys2Proof/Machine/Dispatch.lean ====
section
/-! DEFINITION. Dispatch of an instruction to its meaning (`41_fetch_dispatch.md` R103, R104). -/

namespace Sys2Proof.Machine

def exec (i : Instr) (s : State) : Host.Outcome State Fault Refusal :=
  match i with
  | .pass left right => Sys2Proof.Machine.execPass left right s
  | .syscall left right => Sys2Proof.Machine.execSyscall left right s
  | .move left right => Sys2Proof.Machine.execMove left right s
  | .add left right => Sys2Proof.Machine.execAdd left right s
  | .subtract left right => Sys2Proof.Machine.execSubtract left right s
  | .multiply left right => Sys2Proof.Machine.execMultiply left right s
  | .divide left right => Sys2Proof.Machine.execDivide left right s

end Sys2Proof.Machine
end

