-- ==== Sys2Proof/Machine/Step.lean ====
section
/-! DEFINITION. One pass of the fetch-execute loop (`41_fetch_dispatch.md` R106), and where an instruction is put for the next
step to fetch it. -/

namespace Sys2Proof.Machine

/-- `Step` (R106): the program counter is read once, the instruction there is fetched and decoded, its handler runs, and the
advance follows unless the machine halted. A fault met before the handler is taken like any other (R180). No step is
defined in a Halted machine. -/
def step (s : State) : Host.Outcome State Fault Refusal :=
  match s.runState with
  | .halted => .fault .halted
  | .running =>
    match fetchDecode s s.pc with
    | .error c => .next (s.raise c)
    | .ok i =>
      match exec i s with
      | .next t => .next (finishStep t)
      | .fault f => .fault f
      | .refused r => .refused r

/-- `s` with the instruction of a table word stored where the next step fetches (log entry 15). -/
def State.withFetchWord (s : State) (nbits w : Nat) : State :=
  placeAtPc (readyToFetch s) (tableWords nbits w)

end Sys2Proof.Machine
end

