-- ==== Sys2Proof/Machine/HostInterface.lean ====
section
/-! DEFINITION. The host's side of the machine (`70_reset_and_hazards.md`): the load of a program (R203), the program image (R205),
the run (`41_fetch_dispatch.md` R110), its result (R207), and the life of an instance, which fixes the moves the host has
(R201). No step calls any of these. -/

namespace Sys2Proof.Machine

/-- The words of a program stored from address `k` on, a "direct memory operation during load" (R203). -/
def Memory.writeFrom : Memory → Nat → List Word → Memory
  | m, _, [] => m
  | m, k, w :: ws => Memory.writeFrom (m.write k w) (k + 1) ws

/-- The load entry point of R203, `(program_words, data_start, stack_start)`: the program from address 0, the data base in
`x[3]`, the stack base in `x[2]`, neither validated. It is applied to a freshly reset machine and takes no other; a program
longer than program memory is refused (D18). -/
def State.load (program : List Word) (dataStart stackStart : Word) : Option State :=
  if program.length ≤ Config.pmWords then
    some (((State.reset.setPm (State.reset.pm.writeFrom 0 program)).setReg Config.dsb dataStart).setReg Config.ssb stackStart)
  else none

/-- What a program image holds (R205). -/
structure Image where
  dataStart : Word
  program : List Word
  stackStart : Word
  deriving DecidableEq, Repr

/-- Program bytes taken two at a time, high byte first; an odd trailing byte is padded with a zero low byte (R205). -/
def packBytes : List Byte → List Word
  | [] => []
  | [b] => [wordOfBytes b 0]
  | b :: c :: bs => wordOfBytes b c :: packBytes bs

/-- The program image (R205): two bytes of data start, then the program bytes; the stack starts one past the last word
written. Refused when shorter than 2 bytes or when it holds more than 8192 program bytes (D19). -/
def parseImage : List Byte → Option Image
  | b0 :: b1 :: c =>
    if c.length ≤ 2 * Config.pmWords then
      some { dataStart := wordOfBytes b0 b1, program := packBytes c, stackStart := BitVec.ofNat Config.wordBits (packBytes c).length }
    else none
  | _ => none

/-- `FinalState` (R207): what the host may read of a Halted machine. -/
structure FinalState where
  accumulator : Word
  registers : Vector Word Config.srWords
  memory : Memory
  haltCause : HaltCause
  out : List Byte
  deriving DecidableEq, Repr

/-- The snapshot of a machine (R207). -/
def State.snapshot (s : State) : FinalState where
  accumulator := s.getReg Config.acc
  registers := s.x
  memory := s.pm
  haltCause := s.haltCause
  out := s.out

/-- `Run` (R110) for at most `fuel` steps: the Halted state it reaches; none while it still runs (a run need not end). -/
def runToHalt : Nat → State → Option State
  | fuel, s =>
    match s.runState with
    | .halted => some s
    | .running =>
      match fuel with
      | 0 => none
      | n + 1 =>
        match step s with
        | .next t => runToHalt n t
        | .fault _ => none
        | .refused _ => none

/-- `run() -> FinalState` (R110, R207): the snapshot of the Halted state. Log entry 28. -/
def run (fuel : Nat) (s : State) : Option FinalState := (runToHalt fuel s).map State.snapshot

/-! ### The life of an instance (R201)

"reset; `initialize` once; `Run`", and then the result: a second load, a load after the run, a second run, and a result before
the halt are moves the host does not have, and are refused (D18, U13; log entry 19). -/

/-- Where an instance stands in its life, as the host sees it between two moves. -/
inductive Life where
  /-- Freshly reset, nothing loaded: the machine is `State.reset`. -/
  | fresh
  /-- Loaded, not yet run. -/
  | loaded (s : State)
  /-- The run has reached Halted. -/
  | ended (s : State)
  deriving DecidableEq, Repr

/-- The machine of an instance; its run state and halt cause are the status, readable at any time (R202). -/
def Life.machine : Life → State
  | .fresh => State.reset
  | .loaded s => s
  | .ended s => s

/-- Reset, at any time: the creation of a fresh instance (R200, R202). -/
def Life.reset (_ : Life) : Life := .fresh

/-- The load (R203), once, after reset and before the run. -/
def Life.load : Life → List Word → Word → Word → Option Life
  | .fresh, program, dataStart, stackStart => (State.load program dataStart stackStart).map .loaded
  | .loaded _, _, _, _ => none
  | .ended _, _, _, _ => none

/-- The run (R110), once, after the load; none also while it has not ended within the fuel. -/
def Life.run : Life → Nat → Option Life
  | .fresh, _ => none
  | .loaded s, fuel => (runToHalt fuel s).map .ended
  | .ended _, _ => none

/-- The result (R207), once the machine is Halted. -/
def Life.result : Life → Option FinalState
  | .fresh => none
  | .loaded _ => none
  | .ended s => some s.snapshot

/-- A fresh instance with an image loaded (R201, R205). -/
def boot (image : List Byte) : Option Life :=
  match parseImage image with
  | none => none
  | some im => Life.fresh.load im.program im.dataStart im.stackStart

end Sys2Proof.Machine
end

