-- ==== Sys2Proof/Safety.lean ====
section
/-! DEFINITION. What holds of a machine between steps, and what counts as a safe run, in the terms the statements use. -/

namespace Sys2Proof.Machine

/-- The record names something that was really wrong in the state it halted (R171 to R176): an opcode of the seven is not
reported as unknown, nor an addressing mode; a fetch violation names a word of the instruction at the record's pc that lies
outside program memory; an operand or string violation names an offset that is out of bounds of its bank. -/
def FaultRecord.justified (s : State) : FaultRecord → Prop
  | .unknownOpcode _ byte => 7 ≤ byte.toNat
  | .unknownMode _ _ byte => 4 ≤ byte.toNat ∧ byte.toNat ≤ 15
  | .boundsViolation pc ia .program offset =>
      ia = 3 * pc.toNat ∧ ia ≤ offset ∧ offset ≤ ia + 2 ∧ Config.pmWords ≤ offset
  | .boundsViolation pc ia (.bank b) offset =>
      ia = 3 * pc.toNat ∧ inBounds s b offset = false ∧ offset ≤ 65535
  | .invalidWriteTarget _ => True
  | .divisionByZero _ => True

/-- What every step keeps: program memory is in canonical form; the machine is Running exactly while there is no halt
cause (R23); a fault record carries the index still held by `x[1]` (R176, R180) and is justified. -/
structure State.Inv (s : State) : Prop where
  memory : s.pm.wf
  cause : s.runState = .running ↔ s.haltCause = .none
  recordPc : ∀ r, s.haltCause = .fault r → r.pc = s.pc
  recordJustified : ∀ r, s.haltCause = .fault r → r.justified s

/-- The machine has halted with a fatal condition (R177: a clean exit is not one). -/
def State.faulted (s : State) : Prop := ∃ r, s.haltCause = .fault r

/-- The effect of one write and nothing else (R37): the location `k` holds `v`, every other cell of either array is as
before, and so are the run state, the halt cause and the output. -/
structure State.WroteOnly (s t : State) (k : Loc) (v : Word) : Prop where
  target : t.readLoc k = some v
  others : ∀ j, j ≠ k → t.readLoc j = s.readLoc j
  runState : t.runState = s.runState
  haltCause : t.haltCause = s.haltCause
  out : t.out = s.out

/-- A safe run of `k` steps: no state of it has halted with a fatal condition, and it goes on until the `k` steps are done
or the machine has exited cleanly. -/
def State.safeFor : Nat → State → Prop
  | 0, s => ¬ s.faulted
  | k + 1, s => ¬ s.faulted ∧ (s.haltCause = .exit ∨ ∃ t, step s = .next t ∧ State.safeFor k t)

end Sys2Proof.Machine
end

