-- ==== Sys2Proof/Certificates/Slice0/Obligations.lean ====
section
/-! DEFINITION. The statements for the provers, from the rules of `spec/`. A docstring names the rule or the section a statement
formalises, and the decision of the spec (D<n>) or the log entry it rests on, where it rests on one. -/

open Sys2Proof Sys2Proof.Machine

/-! ### Encoding and decoding -/

/-- A few of the words of R66 and R72, written out from the encoding of R61 (nibbles by D5, log entry 6). -/
def Obligations.DecodesWordsOfTheTable : Prop :=
  decode ⟨0x0031, 0x270F, 0xFFFF⟩ = .ok (.pass (.ref .system 9999) (.ref .data 65535)) ∧
  decode ⟨0x0101, 0x0001, 0x0000⟩ = .ok (.syscall (.literal 1) (.ref .data 0)) ∧
  decode ⟨0x0203, 0x0005, 0x0000⟩ = .ok (.move (.literal 5) (.ref .system 0)) ∧
  decode ⟨0x0312, 0x0001, 0x0000⟩ = .ok (.add (.ref .data 1) (.ref .stack 0)) ∧
  decode ⟨0x0433, 0x0004, 0x0000⟩ = .ok (.subtract (.ref .system 4) (.ref .system 0)) ∧
  decode ⟨0x0513, 0x0007, 0x0008⟩ = .ok (.multiply (.ref .data 7) (.ref .system 8)) ∧
  decode ⟨0x0621, 0x0009, 0x000A⟩ = .ok (.divide (.ref .stack 9) (.ref .data 10))

/-- Decode and encode agree in both directions, for every triple of Words and every instruction: no bit of the three Words is
dropped or ignored (R61: "Every bit of the three words belongs to exactly one field"). -/
def Obligations.DecodeInvertsEncode : Prop :=
  ∀ (ws : InstrWords) (i : Instr), decode ws = .ok i ↔ encode i = ws

/-- R65: every triple decodes to exactly one of three things, tested in this order: an unknown mode (left, then right), an
unknown opcode, an instruction. The fields are written as numbers of the Word, independently of the decoder. -/
def Obligations.DecodeFailsInOrder : Prop :=
  ∀ ws : InstrWords,
    let opcode := ws.w0.toNat / 256
    let lmode := ws.w0.toNat / 16 % 16
    let rmode := ws.w0.toNat % 16
    (3 < lmode → decode ws = .error (.unknownMode .left (BitVec.ofNat 4 lmode))) ∧
    (lmode ≤ 3 → 3 < rmode → decode ws = .error (.unknownMode .right (BitVec.ofNat 4 rmode))) ∧
    (lmode ≤ 3 → rmode ≤ 3 → 6 < opcode → decode ws = .error (.unknownOpcode (BitVec.ofNat 8 opcode))) ∧
    (lmode ≤ 3 → rmode ≤ 3 → opcode ≤ 6 →
      ∃ i, decode ws = .ok i ∧ i.opcode.toNat = opcode ∧ i.left.raw = ws.w1 ∧ i.right.raw = ws.w2)

/-- R80: `Resolve`, all five rows of its table, the fault exactly when the header is above 3, and its examples. -/
def Obligations.ResolveFollowsTheTable : Prop :=
  (∀ (m : Header) (v : Word) (side : Side),
    (m = 0 → resolve m v side = .ok (.literal v)) ∧
    (m = 1 → resolve m v side = .ok (.ref .data v)) ∧
    (m = 2 → resolve m v side = .ok (.ref .stack v)) ∧
    (m = 3 → resolve m v side = .ok (.ref .system v)) ∧
    (4 ≤ m.toNat → resolve m v side = .error (.unknownMode side m)) ∧
    ((∃ e, resolve m v side = .error e) ↔ 3 < m.toNat)) ∧
  resolve 3 0x0001 .right = .ok (.ref .system 1) ∧
  resolve 7 0x0000 .left = .error (.unknownMode .left 7)

/-! ### Banks and operands -/

/-- R35: which accesses are in bounds, with untruncated sums; an access that is not raises, reading or writing; a base of
4096 or more puts every access of its bank out of bounds. -/
def Obligations.BoundsOfTheThreeBanks : Prop :=
  ∀ (s : State) (off : Nat),
    (inBounds s .system off = true ↔ off < 256) ∧
    (inBounds s .stack off = true ↔ (s.getReg 2).toNat + off < 4096) ∧
    (inBounds s .data off = true ↔ (s.getReg 3).toNat + off < 4096) ∧
    (∀ bank, inBounds s bank off = false →
      bankRead s bank off = .error (.boundsViolation (.bank bank) off) ∧
      ∀ v, bankWrite s bank off v = .error (.boundsViolation (.bank bank) off)) ∧
    (∀ bank, inBounds s bank off = true →
      (∃ w, bankRead s bank off = .ok w) ∧ ∀ v, ∃ t, bankWrite s bank off v = .ok t) ∧
    (4096 ≤ (s.getReg 2).toNat → inBounds s .stack off = false) ∧
    (4096 ≤ (s.getReg 3).toNat → inBounds s .data off = false)

/-- R36: `BankRead`. That a read changes nothing, and that a second read returns the same Word, is in its type: it answers a
Word and no state. -/
def Obligations.BankReadGivesTheTarget : Prop :=
  ∀ (s : State) (off : Nat),
    (∀ bank, inBounds s bank off = false → bankRead s bank off = .error (.boundsViolation (.bank bank) off)) ∧
    (∀ h : off < 256, bankRead s .system off = .ok (s.getReg ⟨off, h⟩)) ∧
    (inBounds s .stack off = true → bankRead s .stack off = .ok (s.pm.read ((s.getReg 2).toNat + off))) ∧
    (inBounds s .data off = true → bankRead s .data off = .ok (s.pm.read ((s.getReg 3).toNat + off)))

/-- R37: `BankWrite`. Out of bounds it raises and writes nothing; otherwise exactly the target takes the value, and a new
program counter or base pointer is used by the very next fetch or access. -/
def Obligations.BankWriteChangesOneCell : Prop :=
  ∀ (s : State) (bank : Bank) (off : Nat) (v : Word),
    (inBounds s bank off = false → bankWrite s bank off v = .error (.boundsViolation (.bank bank) off)) ∧
    (inBounds s bank off = true → ∃ t, bankWrite s bank off v = .ok t ∧
      s.WroteOnly t
        (match bank with
          | .system => .reg off
          | .stack => .pm ((s.getReg 2).toNat + off)
          | .data => .pm ((s.getReg 3).toNat + off)) v) ∧
    (∀ t, bankWrite s .system 1 v = .ok t → t.pc = v ∧ fetch t t.pc = fetch s v) ∧
    (∀ t, bankWrite s .system 2 v = .ok t → ∀ o, v.toNat + o < 4096 →
      bankRead t .stack o = .ok (s.pm.read (v.toNat + o))) ∧
    (∀ t, bankWrite s .system 3 v = .ok t → ∀ o, v.toNat + o < 4096 →
      bankRead t .data o = .ok (s.pm.read (v.toNat + o)))

/-- R82: `Get`, its corner cases and its example. -/
def Obligations.GetReadsLiteralOrBank : Prop :=
  ∀ s : State,
    (∀ v, getOperand s (.literal v) = .ok v) ∧
    (∀ bank (off : Word), inBounds s bank off.toNat = true → ∃ w,
      getOperand s (.ref bank off) = .ok w ∧ bankRead s bank off.toNat = .ok w) ∧
    (∀ bank (off : Word), inBounds s bank off.toNat = false →
      getOperand s (.ref bank off) = .error (.boundsViolation (.bank bank) off.toNat)) ∧
    getOperand s (.ref .system 1) = .ok s.pc ∧
    getOperand s (.ref .system 255) = .ok (s.getReg 255) ∧
    getOperand s (.ref .system 256) = .error (.boundsViolation (.bank .system) 256) ∧
    (s.getReg 3 = 6 →
      getOperand s (.ref .data 4089) = .ok (s.pm.read 4095) ∧
      getOperand s (.ref .data 4090) = .error (.boundsViolation (.bank .data) 4090) ∧
      (s.pm.read 6 = 0x4869 → getOperand s (.ref .data 0) = .ok 0x4869))

/-- R83: `Set` on a reference, its corner cases and its example. -/
def Obligations.SetOnReferenceWritesTheCell : Prop :=
  ∀ (s : State) (v : Word),
    (∀ bank (off : Word), inBounds s bank off.toNat = false →
      setOperand s (.ref bank off) v = .error (.boundsViolation (.bank bank) off.toNat)) ∧
    (∀ bank (off : Word), inBounds s bank off.toNat = true →
      ∃ t, setOperand s (.ref bank off) v = .ok t ∧ s.WroteOnly t (bankTarget s bank off.toNat) v) ∧
    (∃ t, setOperand s (.ref .system 1) v = .ok t ∧ t.pc = v) ∧
    (∃ t, setOperand s (.ref .system 2) v = .ok t ∧ ∀ o, bankTarget t .stack o = .pm (v.toNat + o)) ∧
    (∃ t, setOperand s (.ref .system 3) v = .ok t ∧ ∀ o, bankTarget t .data o = .pm (v.toNat + o)) ∧
    (s.getReg 2 = 14 → ∃ t, setOperand s (.ref .stack 0) 0x0234 = .ok t ∧ t.readLoc (.pm 14) = some 0x0234)

/-- R84: `Set` on a Literal is always fatal, when it is reached and not before. -/
def Obligations.LiteralIsNeverWritten : Prop :=
  (∀ (s : State) (w v : Word), setOperand s (.literal w) v = .error .invalidWriteTarget) ∧
  (∀ s : State, exec (.pass (.literal 1) (.literal 2)) s = .next s) ∧
  (∀ s : State, ∃ t, exec (.syscall (.literal 1) (.literal 65)) s = .next t ∧
    t.runState = s.runState ∧ t.haltCause = s.haltCause) ∧
  (∀ s : State, exec (.divide (.literal 0) (.literal 5)) s =
    .next { s with runState := .halted, haltCause := .fault (.divisionByZero s.pc) }) ∧
  decode ⟨0x0200, 0x0001, 0x0002⟩ = .ok (.move (.literal 1) (.literal 2)) ∧
  (∀ s : State, exec (.move (.literal 1) (.literal 2)) s =
    .next { s with runState := .halted, haltCause := .fault (.invalidWriteTarget s.pc) })

/-- `20_memory.md` R41 (derived there): a Stack name and a Data name of one cell; a write through either is read through the
other. -/
def Obligations.StackAndDataAlias : Prop :=
  ∀ (s t : State) (o p : Nat) (v : Word), (s.getReg 2).toNat + o = (s.getReg 3).toNat + p →
    (bankWrite s .stack o v = .ok t → bankRead t .data p = .ok v) ∧
    (bankWrite s .data p v = .ok t → bankRead t .stack o = .ok v)

/-- The canonical form of program memory is one list for one contents (log entry 1): two memories in the form that agree on
every address are equal. -/
def Obligations.CanonicalMemoryIsUnique : Prop :=
  ∀ m n : Memory, m.wf → n.wf → (∀ a, a < 4096 → m.read a = n.read a) → m = n

/-! ### Results of the instructions -/

/-- R120: `pass` completes with nothing read or written, whatever its operands; the step then advances; a bad header is a
decode error for it too. -/
def Obligations.PassDoesNothing : Prop :=
  (∀ (l r : Operand) (s : State), exec (.pass l r) s = .next s) ∧
  (∀ (l r : Operand) (s : State), s.runState = .running → fetchDecode s s.pc = .ok (.pass l r) →
    step s = .next (s.setReg 1 (s.pc + 1))) ∧
  (∀ w0 w1 w2 : Word, w0.toNat / 256 = 0 → w0.toNat / 16 % 16 ≤ 3 → w0.toNat % 16 ≤ 3 →
    ∃ l r, decode ⟨w0, w1, w2⟩ = .ok (.pass l r)) ∧
  decode ⟨0x0031, 0x270F, 0xFFFF⟩ = .ok (.pass (.ref .system 9999) (.ref .data 65535)) ∧
  decode ⟨0x0040, 0x0000, 0x0000⟩ = .error (.unknownMode .left 4) ∧
  decode ⟨0x0000, 0x0000, 0x0000⟩ = .ok (.pass (.literal 0) (.literal 0)) ∧
  (∀ s : State, s.runState = .running → s.pc = 4 → fetch s 4 = .ok ⟨0x0000, 0x0000, 0x0000⟩ →
    ∃ t, step s = .next t ∧ t.pc = 5 ∧ t.runState = .running ∧ t.haltCause = s.haltCause ∧ t.out = s.out ∧
      ∀ k, k ≠ .reg 1 → t.readLoc k = s.readLoc k)

/-- `move` completes whenever its left operand is readable and its right operand is a reference in bounds, and then the right
operand's cell takes the Word and nothing else changes (R121; the order of its accesses is D9). -/
def Obligations.MoveCopiesTheWord : Prop :=
  ∀ (s : State) (l : Operand) (bank : Bank) (off v : Word), getOperand s l = .ok v → inBounds s bank off.toNat = true →
    ∃ t, exec (.move l (.ref bank off)) s = .next t ∧ s.WroteOnly t (bankTarget s bank off.toNat) v ∧
      getOperand t (.ref bank off) = .ok v

/-- `add` completes whenever both operands are readable and the right one is a reference: the sum modulo 2^16 (R130, D1). -/
def Obligations.AddWrapsModulo : Prop :=
  ∀ (s : State) (l : Operand) (bank : Bank) (off a b : Word),
    getOperand s (.ref bank off) = .ok a → getOperand s l = .ok b →
    ∃ t v, exec (.add l (.ref bank off)) s = .next t ∧ v.toNat = (a.toNat + b.toNat) % 65536 ∧
      s.WroteOnly t (bankTarget s bank off.toNat) v

/-- `subtract` completes likewise: the right operand minus the left, modulo 2^16 (R131, D1). -/
def Obligations.SubtractIsRightMinusLeft : Prop :=
  ∀ (s : State) (l : Operand) (bank : Bank) (off a b : Word),
    getOperand s (.ref bank off) = .ok a → getOperand s l = .ok b →
    ∃ t v, exec (.subtract l (.ref bank off)) s = .next t ∧
      (v.toNat : Int) = ((a.toNat : Int) - b.toNat) % 65536 ∧ s.WroteOnly t (bankTarget s bank off.toNat) v

/-- `multiply` completes likewise: the low 16 bits of the product (R132, D1). -/
def Obligations.MultiplyKeepsTheLowHalf : Prop :=
  ∀ (s : State) (l : Operand) (bank : Bank) (off a b : Word),
    getOperand s (.ref bank off) = .ok a → getOperand s l = .ok b →
    ∃ t v, exec (.multiply l (.ref bank off)) s = .next t ∧ v.toNat = a.toNat * b.toNat % 65536 ∧
      s.WroteOnly t (bankTarget s bank off.toNat) v

/-- `divide` completes when moreover the left operand is not 0: the unique quotient q of R133, right divided by left (D10). -/
def Obligations.DivideGivesTheFloor : Prop :=
  ∀ (s : State) (l : Operand) (bank : Bank) (off a b : Word),
    getOperand s (.ref bank off) = .ok a → getOperand s l = .ok b → b ≠ 0 →
    ∃ t q, exec (.divide l (.ref bank off)) s = .next t ∧ q.toNat * b.toNat ≤ a.toNat ∧
      a.toNat < (q.toNat + 1) * b.toNat ∧ s.WroteOnly t (bankTarget s bank off.toNat) q

/-- Selector 0 terminates cleanly, whatever the right operand; the program counter is not advanced, nothing else changes, and no
instruction after it executes (R151). Two clauses are the model's: that no step follows is said as `Fault.halted` (log entry 3),
and that the handler terminates as exec answering the state already Halted (log entry 4). -/
def Obligations.SelectorZeroTerminates : Prop :=
  (∀ (l r : Operand) (s : State), getOperand s l = .ok 0 →
    exec (.syscall l r) s = .next { s with runState := .halted, haltCause := .exit } ∧
    (s.runState = .running → fetchDecode s s.pc = .ok (.syscall l r) →
      ∃ t, step s = .next t ∧ t = { s with runState := .halted, haltCause := .exit } ∧ step t = .fault .halted)) ∧
  (∀ (r : Operand) (s t : State), s.haltCause = .none → exec (.syscall (.ref .system 0) r) s = .next t →
    (t.haltCause = .exit ↔ s.getReg 0 = 0)) ∧
  decode ⟨0x0100, 0x0000, 0x0000⟩ = .ok (.syscall (.literal 0) (.literal 0)) ∧
  decode ⟨0x0101, 0x0000, 0xFFFF⟩ = .ok (.syscall (.literal 0) (.ref .data 65535)) ∧
  (∀ s : State, exec (.syscall (.literal 0) (.ref .data 65535)) s =
    .next { s with runState := .halted, haltCause := .exit })

/-- R152: selector 1 with a Literal appends exactly its low byte, without the prefix, and the machine goes on. -/
def Obligations.LiteralOutputIsItsLowByte : Prop :=
  (∀ (l : Operand) (v : Word) (s : State), getOperand s l = .ok 1 →
    ∃ t, exec (.syscall l (.literal v)) s = .next t ∧ t.out = s.out ++ [BitVec.ofNat 8 (v.toNat % 256)] ∧
      t.pm = s.pm ∧ t.x = s.x ∧ t.runState = s.runState ∧ t.haltCause = s.haltCause) ∧
  (∀ (l : Operand) (v : Word) (s : State), getOperand s l = .ok 1 → s.runState = .running →
    fetchDecode s s.pc = .ok (.syscall l (.literal v)) →
    ∃ t, step s = .next t ∧ t.out = s.out ++ [BitVec.ofNat 8 (v.toNat % 256)] ∧ t.runState = .running ∧ t.pc = s.pc + 1) ∧
  (∀ s : State, exec (.syscall (.literal 1) (.literal 0x1248)) s = .next { s with out := s.out ++ [0x48] }) ∧
  (∀ s : State, exec (.syscall (.literal 1) (.literal 0x4800)) s = .next { s with out := s.out ++ [0] }) ∧
  decode ⟨0x0100, 0x0001, 0x0048⟩ = .ok (.syscall (.literal 1) (.literal 0x48)) ∧
  (∀ s : State, exec (.syscall (.literal 1) (.literal 0x48)) s = .next { s with out := s.out ++ [0x48] })

/-- R154: every other selector is a no-op that does not look at the right operand; the advance follows. -/
def Obligations.OtherSelectorsDoNothing : Prop :=
  (∀ (l r : Operand) (s : State) (sel : Word), getOperand s l = .ok sel → 2 ≤ sel.toNat →
    exec (.syscall l r) s = .next s ∧
    (s.runState = .running → fetchDecode s s.pc = .ok (.syscall l r) → step s = .next (s.setReg 1 (s.pc + 1)))) ∧
  decode ⟨0x0103, 0x0002, 0x270F⟩ = .ok (.syscall (.literal 2) (.ref .system 9999)) ∧
  (∀ s : State, exec (.syscall (.literal 2) (.ref .system 9999)) s = .next s)

/-- A string in any bank: DIAG_PREFIX, then the high and the low byte of each Word, up to and without the first zero byte;
nothing else changes and the machine goes on (R153; the prefix and its place are D14 and D15). -/
def Obligations.StringOutputStopsAtZeroByte : Prop :=
  ∀ (s : State) (l : Operand) (bank : Bank) (off : Word) (ws : List Word) (w : Word),
    getOperand s l = .ok 1 →
    (∀ (k : Nat) (h : k < ws.length), bankRead s bank (off.toNat + k) = .ok ws[k]) →
    (∀ u ∈ ws, hiByte u ≠ 0 ∧ loByte u ≠ 0) →
    bankRead s bank (off.toNat + ws.length) = .ok w → (hiByte w = 0 ∨ loByte w = 0) →
    ∃ t, exec (.syscall l (.ref bank off)) s = .next t ∧
      t.out = s.out ++ Config.diagPrefix ++ ws.flatMap (fun u => [hiByte u, loByte u]) ++
        (if hiByte w = 0 then [] else [hiByte w]) ∧
      t.pm = s.pm ∧ t.x = s.x ∧ t.runState = s.runState ∧ t.haltCause = s.haltCause

/-- A string that runs past the end of its bank: the bytes so far, the prefix included, stay in the output, and the machine
halts with the bounds violation at the untruncated offset (R153, R173; D15). -/
def Obligations.UnterminatedStringFaults : Prop :=
  ∀ (s : State) (l : Operand) (bank : Bank) (off : Word) (ws : List Word),
    getOperand s l = .ok 1 →
    (∀ (k : Nat) (h : k < ws.length), bankRead s bank (off.toNat + k) = .ok ws[k]) →
    (∀ u ∈ ws, hiByte u ≠ 0 ∧ loByte u ≠ 0) →
    inBounds s bank (off.toNat + ws.length) = false →
    exec (.syscall l (.ref bank off)) s = .next
      { s with
        out := s.out ++ Config.diagPrefix ++ ws.flatMap (fun u => [hiByte u, loByte u])
        runState := .halted
        haltCause := .fault (.boundsViolation s.pc (3 * s.pc.toNat) (.bank bank) (off.toNat + ws.length)) }

/-- Every string ends, "in a zero byte or in that fault" (`44_syscall.md` R153, `70_reset_and_hazards.md` R212): from every
reference, at most 4096 Words without a zero byte are read, in the System bank at most as many as lie above the offset, and then
comes a Word with a zero byte or an offset out of bounds. The two premises are those of `StringOutputStopsAtZeroByte` and of
`UnterminatedStringFaults`, so every string output falls under one of them; and the handler answers a next state, with at most two
bytes for each of those Words and one more (the prefix is D14). -/
def Obligations.StringLengthIsBounded : Prop :=
  ∀ (s : State) (bank : Bank) (off : Word), ∃ ws : List Word,
    ws.length ≤ 4096 ∧ (bank = .system → ws.length ≤ 256 - off.toNat) ∧
    (∀ (k : Nat) (h : k < ws.length), bankRead s bank (off.toNat + k) = .ok ws[k]) ∧
    (∀ u ∈ ws, hiByte u ≠ 0 ∧ loByte u ≠ 0) ∧
    ((ws.length < 4096 ∧ ∃ w, bankRead s bank (off.toNat + ws.length) = .ok w ∧ (hiByte w = 0 ∨ loByte w = 0)) ∨
      inBounds s bank (off.toNat + ws.length) = false) ∧
    (∀ l : Operand, getOperand s l = .ok 1 → ∃ t bs, exec (.syscall l (.ref bank off)) s = .next t ∧
      t.out = s.out ++ Config.diagPrefix ++ bs ∧ bs.length ≤ 2 * ws.length + 1)

/-! ### Frames -/

/-- The frame of the five writing instructions, in every form: when exec answers a next state, every cell of either array other
than the right operand's own is as before, whether the instruction completed or was stopped by a fatal condition, the output
is untouched, and the run state and halt cause change only by taking a fatal condition (R121, R130 to R133, R179). -/
def Obligations.WritersFrame : Prop :=
  ∀ op ∈ [Instr.move, Instr.add, Instr.subtract, Instr.multiply, Instr.divide],
  ∀ (l r : Operand) (s t : State), exec (op l r) s = .next t →
    (∀ k, (∀ bank off, r = .ref bank off → k ≠ bankTarget s bank off.toNat) → t.readLoc k = s.readLoc k) ∧
    t.out = s.out ∧
    ((t.runState = s.runState ∧ t.haltCause = s.haltCause) ∨ ∃ c, t = s.raise c)

/-- The frame of `syscall`, in every form: memory and registers never change; the output only grows, and only when the selector
is 1; the run state and the halt cause change only by the exit of selector 0, or by taking a bounds violation, of the left operand
or of a string of selector 1 (R150 to R154, R22). -/
def Obligations.SyscallFrame : Prop :=
  ∀ (l r : Operand) (s t : State), exec (.syscall l r) s = .next t →
    t.pm = s.pm ∧ t.x = s.x ∧ (∃ bs, t.out = s.out ++ bs) ∧ (t.out ≠ s.out → getOperand s l = .ok 1) ∧
    ((t.runState = s.runState ∧ t.haltCause = s.haltCause) ∨
      (getOperand s l = .ok 0 ∧ t.runState = .halted ∧ t.haltCause = .exit) ∨
      ∃ bank off, inBounds s bank off = false ∧
        (getOperand s l = .error (.boundsViolation (.bank bank) off) ∨ getOperand s l = .ok 1) ∧
        t.runState = .halted ∧ t.haltCause = .fault (.boundsViolation s.pc (3 * s.pc.toNat) (.bank bank) off))

/-- `syscall` reads its left operand always and its right one only for selector 1 (R150, R69; D17): out of bounds on the left
it faults, and for every other selector the right operand makes no difference. -/
def Obligations.SyscallReadsOnlyWhatItNeeds : Prop :=
  (∀ (r : Operand) (s : State) (bank : Bank) (off : Word), inBounds s bank off.toNat = false →
    exec (.syscall (.ref bank off) r) s = .next (s.raise (.boundsViolation (.bank bank) off.toNat))) ∧
  (∀ (l r r' : Operand) (s : State), getOperand s l ≠ .ok 1 → exec (.syscall l r) s = exec (.syscall l r') s)

/-! ### Fatal conditions -/

/-- R180: taking a fatal condition sets the run state and the halt cause and changes nothing else; the program counter keeps the
index of the faulting instruction. A condition of fetch or decode is taken by the step at once. -/
def Obligations.FaultEntryChangesNothingElse : Prop :=
  ∀ (s : State) (c : FatalCondition),
    (s.runState = .running → fetchDecode s s.pc = .error c → step s = .next (s.raise c)) ∧
    s.raise c = { s with
      runState := .halted
      haltCause := .fault (match c with
        | .unknownOpcode b => .unknownOpcode s.pc b
        | .unknownMode side h => .unknownMode s.pc side (BitVec.ofNat 8 h.toNat)
        | .boundsViolation bank off => .boundsViolation s.pc (3 * s.pc.toNat) bank off
        | .invalidWriteTarget => .invalidWriteTarget s.pc
        | .divisionByZero => .divisionByZero s.pc) } ∧
    (s.raise c).pc = s.pc

/-- R171: the unknown opcode, at the step: the state before the step, but halted with the opcode byte and the program counter.
It is raised before any operand is read: the raw values are any Words. -/
def Obligations.UnknownOpcodeHalts : Prop :=
  ∀ (s : State) (w0 w1 w2 : Word), s.runState = .running → fetch s s.pc = .ok ⟨w0, w1, w2⟩ →
    w0.toNat / 16 % 16 ≤ 3 → w0.toNat % 16 ≤ 3 → 7 ≤ w0.toNat / 256 →
    step s = .next { s with
      runState := .halted, haltCause := .fault (.unknownOpcode s.pc (BitVec.ofNat 8 (w0.toNat / 256))) }

/-- The unknown addressing mode, at the step, for any opcode byte, the left header before the right one (R172; the record is D12,
the order D8). -/
def Obligations.UnknownModeHalts : Prop :=
  ∀ (s : State) (w0 w1 w2 : Word), s.runState = .running → fetch s s.pc = .ok ⟨w0, w1, w2⟩ →
    (3 < w0.toNat / 16 % 16 → step s = .next { s with
      runState := .halted, haltCause := .fault (.unknownMode s.pc .left (BitVec.ofNat 8 (w0.toNat / 16 % 16))) }) ∧
    (w0.toNat / 16 % 16 ≤ 3 → 3 < w0.toNat % 16 → step s = .next { s with
      runState := .halted, haltCause := .fault (.unknownMode s.pc .right (BitVec.ofNat 8 (w0.toNat % 16))) })

/-- R174: who raises the invalid write target, when, what it records, and that nothing else changes: it is raised exactly with a
Literal right operand, after the left operand was read and, for `divide`, found not to be 0. -/
def Obligations.InvalidWriteTargetRule : Prop :=
  (∀ op ∈ [Instr.add, Instr.subtract, Instr.multiply], ∀ (l : Operand) (w b : Word) (s : State), getOperand s l = .ok b →
    exec (op l (.literal w)) s = .next { s with runState := .halted, haltCause := .fault (.invalidWriteTarget s.pc) }) ∧
  (∀ (l : Operand) (w b : Word) (s : State), getOperand s l = .ok b →
    exec (.move l (.literal w)) s = .next { s with runState := .halted, haltCause := .fault (.invalidWriteTarget s.pc) }) ∧
  (∀ (l : Operand) (w b : Word) (s : State), getOperand s l = .ok b → b ≠ 0 →
    exec (.divide l (.literal w)) s = .next { s with runState := .halted, haltCause := .fault (.invalidWriteTarget s.pc) }) ∧
  (∀ (i : Instr) (s t : State) (p : Word), s.haltCause = .none → exec i s = .next t →
    t.haltCause = .fault (.invalidWriteTarget p) →
    (∃ w, i.right = .literal w) ∧ (∀ l r, i ≠ .pass l r ∧ i ≠ .syscall l r) ∧
      (∃ b, getOperand s i.left = .ok b ∧ ∀ l r, i = .divide l r → b ≠ 0) ∧ p = s.pc ∧
      t = { s with runState := .halted, haltCause := .fault (.invalidWriteTarget s.pc) })

/-- R175: division by zero is fatal for every dividend, raised by `divide` only, after both reads and before the write; the
destination keeps its value. The other three have no arithmetic error: with readable operands they complete. -/
def Obligations.DivisionByZeroRule : Prop :=
  (∀ (l r : Operand) (a : Word) (s : State), getOperand s r = .ok a → getOperand s l = .ok 0 →
    exec (.divide l r) s = .next { s with runState := .halted, haltCause := .fault (.divisionByZero s.pc) }) ∧
  (∀ (i : Instr) (s t : State) (p : Word), s.haltCause = .none → exec i s = .next t →
    t.haltCause = .fault (.divisionByZero p) →
    (∃ l r a, i = .divide l r ∧ getOperand s r = .ok a ∧ getOperand s l = .ok 0) ∧ p = s.pc ∧
      t = { s with runState := .halted, haltCause := .fault (.divisionByZero s.pc) }) ∧
  (∀ op ∈ [Instr.add, Instr.subtract, Instr.multiply], ∀ (l : Operand) (bank : Bank) (off a b : Word) (s : State),
    getOperand s (.ref bank off) = .ok a → getOperand s l = .ok b →
    ∃ t, exec (op l (.ref bank off)) s = .next t ∧ t.runState = s.runState ∧ t.haltCause = s.haltCause)

/-- The order of a handler's own faults for `move` (R121, R178; D9). -/
def Obligations.MoveFaultOrder : Prop :=
  ∀ (s : State) (l r : Operand),
    (∀ bank off, l = .ref bank off → inBounds s bank off.toNat = false →
      exec (.move l r) s = .next (s.raise (.boundsViolation (.bank bank) off.toNat))) ∧
    (∀ v w, getOperand s l = .ok v → r = .literal w → exec (.move l r) s = .next (s.raise .invalidWriteTarget)) ∧
    (∀ v bank off, getOperand s l = .ok v → r = .ref bank off → inBounds s bank off.toNat = false →
      exec (.move l r) s = .next (s.raise (.boundsViolation (.bank bank) off.toNat)))

/-- The order of a handler's own faults for the four arithmetic instructions: the right read, the left read, the zero divisor,
the Literal destination (R130 to R133, R178; D9). -/
def Obligations.ArithmeticFaultOrder : Prop :=
  (∀ op ∈ [Instr.add, Instr.subtract, Instr.multiply, Instr.divide], ∀ (s : State) (l r : Operand),
    (∀ bank off, r = .ref bank off → inBounds s bank off.toNat = false →
      exec (op l r) s = .next (s.raise (.boundsViolation (.bank bank) off.toNat))) ∧
    (∀ a bank off, getOperand s r = .ok a → l = .ref bank off → inBounds s bank off.toNat = false →
      exec (op l r) s = .next (s.raise (.boundsViolation (.bank bank) off.toNat)))) ∧
  (∀ op ∈ [Instr.add, Instr.subtract, Instr.multiply], ∀ (s : State) (l : Operand) (w b : Word), getOperand s l = .ok b →
    exec (op l (.literal w)) s = .next (s.raise .invalidWriteTarget)) ∧
  (∀ (s : State) (l : Operand) (w b : Word), getOperand s l = .ok b →
    exec (.divide l (.literal w)) s = .next (s.raise (if b = 0 then .divisionByZero else .invalidWriteTarget)))

/-- Precise faults (R179, derived there): a step that ends in a fatal condition leaves memory and registers as they were, the
program counter included, and the output too unless it was a syscall with selector 1. -/
def Obligations.FaultsArePrecise : Prop :=
  ∀ s t : State, s.haltCause = .none → step s = .next t → t.faulted →
    t.runState = .halted ∧ t.pm = s.pm ∧ t.x = s.x ∧
    (t.out = s.out ∨ ∃ l r, fetchDecode s s.pc = .ok (.syscall l r) ∧ getOperand s l = .ok 1 ∧ ∃ bs, t.out = s.out ++ bs)

/-- The cause codes of the status interface (R176, R202; the numbers are D11). -/
def Obligations.CauseCodes : Prop :=
  HaltCause.code .none = 0 ∧ HaltCause.code .exit = 0 ∧
  ∀ (s : State) (c : FatalCondition), (s.raise c).haltCause.code =
    match c with
    | .unknownOpcode _ => 1
    | .unknownMode _ _ => 2
    | .boundsViolation _ _ => 3
    | .invalidWriteTarget => 4
    | .divisionByZero => 5

/-! ### Fetch, the step, the program counter -/

/-- `Fetch` (R100; all three Words, the first out of range reported, D7; exact addresses, D6). -/
def Obligations.FetchReadsThreeWords : Prop :=
  ∀ (s : State) (p : Word),
    (p.toNat ≤ 1364 → fetch s p =
      .ok ⟨s.pm.read (3 * p.toNat), s.pm.read (3 * p.toNat + 1), s.pm.read (3 * p.toNat + 2)⟩) ∧
    (p.toNat = 1365 → fetch s p = .error (.boundsViolation .program 4096)) ∧
    (1365 < p.toNat → fetch s p = .error (.boundsViolation .program (3 * p.toNat))) ∧
    (s.runState = .running → s.pc = p → 1365 < p.toNat → step s = .next { s with
      runState := .halted
      haltCause := .fault (.boundsViolation p (3 * p.toNat) .program (3 * p.toNat)) })

/-- R106: `Step`. A fault of fetch or decode halts with the record of the step's pc; else the step runs the decoded instruction:
it is exec of the instruction at the program counter, and then the advance if the handler continued, that is if the machine is
still Running; a Halted machine has no step. With the rule's example. -/
def Obligations.StepRunsDecodedInstruction : Prop :=
  (∀ (s t : State) (i : Instr), s.runState = .running → fetchDecode s s.pc = .ok i → exec i s = .next t →
    (t.runState = .running → step s = .next (t.setReg 1 (t.pc + 1))) ∧
    (t.runState = .halted → step s = .next t)) ∧
  (∀ (s : State) (c : FatalCondition), s.runState = .running → fetchDecode s s.pc = .error c →
    step s = .next { s with runState := .halted, haltCause := .fault (c.record s.pc) }) ∧
  (∀ s : State, s.runState = .halted → step s = .fault .halted) ∧
  ∃ t, step (State.reset.setPm [(0, 0x0203), (1, 0x0005)]) = .next t ∧
    t.getReg 0 = 5 ∧ t.pc = 1 ∧ t.runState = .running

/-- R105's transitions: a Running machine always has a next state; a Halted one has none; nothing is ever refused. -/
def Obligations.StepDefinedExactlyWhenRunning : Prop :=
  ∀ s : State,
    (s.runState = .running → ∃ t, step s = .next t) ∧
    (s.runState = .halted → step s = .fault .halted) ∧
    (∀ r, step s ≠ .refused r)

/-- The program counter over a step (R15, R107; D3, D4): a step that ends Running and whose instruction does not have `R[1]`
as the destination of a write advances it by exactly 1 modulo 2^16; a step that ends Halted leaves it. -/
def Obligations.ProgramCounterRule : Prop :=
  ∀ (s t : State), step s = .next t →
    (t.runState = .halted → t.pc = s.pc) ∧
    (t.runState = .running → ∃ i, fetchDecode s s.pc = .ok i ∧
      (i.right ≠ .ref .system 1 ∨ i.opcode = 0 ∨ i.opcode = 1 → t.pc.toNat = (s.pc.toNat + 1) % 65536))

/-- Control transfer (R108, derived there): a write of v to `R[1]` continues at v + 1; `add #k, R[1]` at p continues at
p + k + 1; `subtract #k, R[1]` at p - k + 1. -/
def Obligations.WritingPcTransfersControl : Prop :=
  ∀ (s : State) (l : Operand) (v : Word), s.runState = .running → getOperand s l = .ok v →
    (fetchDecode s s.pc = .ok (.move l (.ref .system 1)) → step s = .next (s.setReg 1 (v + 1))) ∧
    (fetchDecode s s.pc = .ok (.add l (.ref .system 1)) → step s = .next (s.setReg 1 (s.pc + v + 1))) ∧
    (fetchDecode s s.pc = .ok (.subtract l (.ref .system 1)) → step s = .next (s.setReg 1 (s.pc - v + 1))) ∧
    (fetchDecode s s.pc = .ok (.multiply l (.ref .system 1)) → step s = .next (s.setReg 1 (s.pc * v + 1))) ∧
    (fetchDecode s s.pc = .ok (.divide l (.ref .system 1)) → v ≠ 0 → step s = .next (s.setReg 1 (s.pc / v + 1)))

/-- Fetch coherence (R46, derived there): a Word stored through any bank is what the next fetch of it sees, and the other Words of
the instruction are as before. -/
def Obligations.StoresAreSeenByFetch : Prop :=
  ∀ (s t : State) (bank : Bank) (off : Nat) (v p : Word) (k : Nat), p.toNat ≤ 1364 → k < 3 →
    bankTarget s bank off = .pm (3 * p.toNat + k) → bankWrite s bank off v = .ok t →
    ∃ ws, fetch s p = .ok ws ∧ fetch t p = .ok
      ⟨if k = 0 then v else ws.w0, if k = 1 then v else ws.w1, if k = 2 then v else ws.w2⟩

/-! ### The whole machine -/

/-- Every step keeps the invariant of `Safety.lean`: canonical memory; Running exactly while there is no halt cause; a fault
record that carries the index still in `x[1]` and names something really wrong in the halted state (R23, R171 to R176). -/
def Obligations.StepKeepsInvariant : Prop :=
  ∀ s t : State, s.Inv → step s = .next t → t.Inv

/-- The invariant holds right after reset. -/
def Obligations.ResetHasInvariant : Prop := State.reset.Inv

/-- R25: the reset state, and what a load then makes of it. -/
def Obligations.ResetIsAllZeroAndRunning : Prop :=
  (∀ a, a < 4096 → State.reset.readLoc (.pm a) = some 0) ∧
  (∀ i, i < 256 → State.reset.readLoc (.reg i) = some 0) ∧
  State.reset.getReg 0 = 0 ∧ State.reset.pc = 0 ∧ State.reset.getReg 2 = 0 ∧ State.reset.getReg 3 = 0 ∧
  State.reset.runState = .running ∧ State.reset.haltCause = .none ∧ State.reset.out = [] ∧
  (∀ (ws : List Word) (ds ss : Word) (s : State), State.load ws ds ss = some s →
    (∀ (k : Nat) (h : k < ws.length), s.readLoc (.pm k) = some ws[k]) ∧ s.getReg 2 = ss ∧ s.getReg 3 = ds ∧ s.pc = 0)

/-- One step changes at most one cell beside the program counter, and it is the cell the fetched instruction's right operand
names (R37, R109, R179). -/
def Obligations.StepChangesOnlyTheDestination : Prop :=
  ∀ (s t : State) (k : Loc), step s = .next t → k ≠ .reg 1 →
    (∀ i bank off, fetchDecode s s.pc = .ok i → i.right = .ref bank off → k ≠ bankTarget s bank off.toNat) →
    t.readLoc k = s.readLoc k

/-- The output is never read (R22): two machines that differ only in what they have already emitted take the same step, and emit
the same bytes in it. -/
def Obligations.OutputIsNeverRead : Prop :=
  ∀ (s : State) (o : List Byte),
    (∀ t, step s = .next t → ∃ bs, t.out = s.out ++ bs ∧ step { s with out := o } = .next { t with out := o ++ bs }) ∧
    (∀ f, step s = .fault f → step { s with out := o } = .fault f)

/-- Zeroed memory is a `pass` sled (R112, derived there): from any Running state with all of program memory zero and the program
counter at p <= 1365, the machine performs 1365 - p `pass` steps that change the program counter alone, all of them safe, and
the next step halts it with the fetch violation at word address 4096. From reset this is R112's run. -/
def Obligations.ZeroedMemoryIsAPassSled : Prop :=
  ∀ s : State, s.runState = .running → s.haltCause = .none → (∀ a, a < 4096 → s.pm.read a = 0) → s.pc.toNat ≤ 1365 →
    Host.Core.run Sys2Proof.core (1365 - s.pc.toNat) s = .next (s.setReg 1 1365) ∧
    s.safeFor (1365 - s.pc.toNat) ∧
    step (s.setReg 1 1365) = .next { s.setReg 1 1365 with
      runState := .halted, haltCause := .fault (.boundsViolation 1365 4095 .program 4096) }

/-! ### The host interface -/

/-- The load of R203 on a freshly reset machine: the program's Words, the two bases, everything else at its reset value; a
program longer than program memory is refused (D18). -/
def Obligations.LoadPlacesTheProgram : Prop :=
  ∀ (ws : List Word) (ds ss : Word),
    (4096 < ws.length → State.load ws ds ss = none) ∧
    (ws.length ≤ 4096 → ∃ s, State.load ws ds ss = some s ∧ s.pm.wf ∧
      (∀ (a : Nat) (h : a < ws.length), s.readLoc (.pm a) = some ws[a]) ∧
      (∀ a, ws.length ≤ a → a < 4096 → s.readLoc (.pm a) = some 0) ∧
      s.getReg 2 = ss ∧ s.getReg 3 = ds ∧ (∀ i, i ≠ 2 → i ≠ 3 → s.getReg i = 0) ∧
      s.runState = .running ∧ s.haltCause = .none ∧ s.out = [])

/-- The loader round trip (R205): word k of an image with N program bytes is byte 2k times 256 plus byte 2k + 1, an odd trailing
byte counts 256 times, the first two bytes are the data start, and the stack starts one past the last word written (the
refusals are D19). -/
def Obligations.ImageRoundTrip : Prop :=
  (∀ bytes : List Byte, (parseImage bytes = none ↔ bytes.length < 2 ∨ 8194 < bytes.length)) ∧
  (∀ (b0 b1 : Byte) (body : List Byte) (im : Image), parseImage (b0 :: b1 :: body) = some im →
    im.dataStart.toNat = b0.toNat * 256 + b1.toNat ∧
    im.program.length = (body.length + 1) / 2 ∧
    im.stackStart.toNat = im.program.length ∧
    (∀ (k : Nat) (h : k < im.program.length) (h2 : 2 * k + 2 ≤ body.length),
      (im.program[k]).toNat = (body[2 * k]).toNat * 256 + (body[2 * k + 1]).toNat) ∧
    (∀ (k : Nat) (h : k < im.program.length) (h1 : 2 * k + 1 = body.length),
      (im.program[k]).toNat = (body[2 * k]).toNat * 256))

/-- `run` (R110, R207): it answers exactly when the machine reaches Halted within the fuel, and the answer holds that state's
accumulator, all registers, all of memory, the halt cause and the output. The fuel and the layout are the model's (log entry 28). -/
def Obligations.RunReportsTheHaltedState : Prop :=
  ∀ (n : Nat) (s : State) (f : FinalState), run n s = some f ↔
    ∃ k t, k ≤ n ∧ Host.Core.run Sys2Proof.core k s = .next t ∧ t.runState = .halted ∧
      f.accumulator = t.getReg 0 ∧ f.registers = t.x ∧ f.memory = t.pm ∧ f.haltCause = t.haltCause ∧ f.out = t.out

/-- The model's own placing of a table word (log entries 14 and 15): from every state, the next step fetches exactly the three
Words of the 48-bit number of R62. -/
def Obligations.FetchWordIsFetchedNext : Prop :=
  ∀ (s : State) (w0 w1 w2 : Word),
    let t := s.withFetchWord 48 (w0.toNat * 2 ^ 32 + w1.toNat * 2 ^ 16 + w2.toNat)
    t.runState = .running ∧ fetch t t.pc = .ok ⟨w0, w1, w2⟩

/-- The life of an instance (R201, R200, R202; the refusals are D18 and U13, log entry 19): reset gives the fresh machine at any
time; the load is had once, by a fresh instance; the run once, by a loaded one, and it ends in the Halted state its steps reach;
the result is had of an ended one. The host has no other move. -/
def Obligations.HostMovesFollowTheLife : Prop :=
  (∀ l : Life, l.reset.machine = State.reset ∧ l.reset = .fresh) ∧
  (∀ (l l' : Life) (ws : List Word) (ds ss : Word), l.load ws ds ss = some l' ↔
    l = .fresh ∧ ∃ s, State.load ws ds ss = some s ∧ l' = .loaded s) ∧
  (∀ (l l' : Life) (n : Nat), l.run n = some l' ↔
    ∃ s t k, l = .loaded s ∧ l' = .ended t ∧ k ≤ n ∧ Host.Core.run Sys2Proof.core k s = .next t ∧ t.runState = .halted) ∧
  (∀ (l : Life) (f : FinalState), l.result = some f ↔ ∃ t, l = .ended t ∧ f = t.snapshot)
end

