-- ==== Sys2Proof/Laws/Decode.lean ====
section
/-! SUPPORT. The small lemmas of the decoder and the encoder. -/

namespace Sys2Proof

/-! ### The ranges, as numerals -/

theorem word_toNat_lt (w : Word) : w.toNat < 65536 := w.isLt
theorem byte_toNat_lt (b : Byte) : b.toNat < 256 := b.isLt
theorem opcode_toNat_lt (op : Opcode) : op.toNat < 256 := op.isLt
theorem header_toNat_lt (h : Header) : h.toNat < 16 := h.isLt

/-! ### The fields as numbers -/

/-- Concatenation (R4), as a number. -/
theorem toNat_concat {n m : Nat} (a : BitVec n) (b : BitVec m) : (a ++ b).toNat = a.toNat * 2 ^ m + b.toNat := by
  rw [BitVec.toNat_append, ← Nat.shiftLeft_add_eq_or_of_lt b.isLt, Nat.shiftLeft_eq]

@[simp] theorem wordOfBytes_toNat (hi lo : Byte) : (wordOfBytes hi lo).toNat = hi.toNat * 256 + lo.toNat :=
  toNat_concat hi lo

@[simp] theorem hiByte_toNat (w : Word) : (hiByte w).toNat = w.toNat / 256 := by
  simp [hiByte, Nat.shiftRight_eq_div_pow]; omega

@[simp] theorem loByte_toNat (w : Word) : (loByte w).toNat = w.toNat % 256 := by
  simp [loByte]

/-- The first Word of given fields, as R61 writes it. -/
theorem wordsOfFields_w0_toNat (f : Fields) :
    (wordsOfFields f).w0.toNat = f.opcode.toNat * 256 + f.lmode.toNat * 16 + f.rmode.toNat := by
  simp only [wordsOfFields, toNat_concat, Config.modeBits]; omega

/-- The fields of the first Word, as numbers of it (R61). -/
theorem fieldsOfWords_opcode_toNat (ws : InstrWords) : (fieldsOfWords ws).opcode.toNat = ws.w0.toNat / 256 := by
  simp [fieldsOfWords, Nat.shiftRight_eq_div_pow]; omega

theorem fieldsOfWords_lmode_toNat (ws : InstrWords) : (fieldsOfWords ws).lmode.toNat = ws.w0.toNat / 16 % 16 := by
  simp [fieldsOfWords, Nat.shiftRight_eq_div_pow]

theorem fieldsOfWords_rmode_toNat (ws : InstrWords) : (fieldsOfWords ws).rmode.toNat = ws.w0.toNat % 16 := by
  simp [fieldsOfWords]

/-! ### Resolution and lookup -/

/-- What a failed resolution says: a header above 3 (R80). -/
theorem resolve_error {m : Header} {v : Word} {side : Side} {e : DecodeError}
    (h : resolve m v side = .error e) : 3 < m.toNat ∧ e = .unknownMode side m := by
  unfold resolve at h
  split at h <;> cases h
  simp only [imp_false] at *
  exact ⟨by omega, trivial⟩

/-- What a failed lookup says: an opcode above 6 (R103). -/
theorem lookupOpcode_error {op : Opcode} {l r : Operand} {e : DecodeError}
    (h : lookupOpcode op l r = .error e) : 6 < op.toNat ∧ e = .unknownOpcode op := by
  unfold lookupOpcode at h
  split at h <;> cases h
  simp only [imp_false] at *
  exact ⟨by omega, trivial⟩

/-- What a successful resolution says: the header is the operand's mode and the raw value its own. -/
theorem resolve_ok {m : Header} {v : Word} {side : Side} {o : Operand}
    (h : resolve m v side = .ok o) : o.mode = m ∧ o.raw = v := by
  unfold resolve at h
  split at h <;> cases h <;> rename_i hm <;>
    exact ⟨BitVec.eq_of_toNat_eq (by simp [Operand.mode, hm]), rfl⟩

@[simp] theorem resolve_mode_raw (o : Operand) (side : Side) : resolve o.mode o.raw side = .ok o := by
  cases o with
  | literal v => rfl
  | ref b off => cases b <;> rfl

/-- What a successful lookup says: the instruction has that opcode and those operands. -/
theorem lookupOpcode_ok {op : Opcode} {l r : Operand} {i : Instr}
    (h : lookupOpcode op l r = .ok i) : i.opcode = op ∧ i.left = l ∧ i.right = r := by
  unfold lookupOpcode at h
  split at h <;> cases h <;> rename_i ho <;>
    exact ⟨BitVec.eq_of_toNat_eq (by simp [Instr.opcode, ho]), rfl, rfl⟩

@[simp] theorem lookupOpcode_opcode (i : Instr) : lookupOpcode i.opcode i.left i.right = .ok i := by
  cases i <;> rfl

/-- A failed decode names the left header, else the right header, else the opcode (R65). -/
theorem decodeFields_error {f : Fields} {e : DecodeError} (h : decodeFields f = .error e) :
    (3 < f.lmode.toNat ∧ e = .unknownMode .left f.lmode) ∨ (3 < f.rmode.toNat ∧ e = .unknownMode .right f.rmode) ∨
      (6 < f.opcode.toNat ∧ e = .unknownOpcode f.opcode) := by
  simp only [decodeFields, bind, Except.bind] at h
  split at h
  · cases h; exact .inl (resolve_error ‹_›)
  · split at h
    · cases h; exact .inr (.inl (resolve_error ‹_›))
    · exact .inr (.inr (lookupOpcode_error h))

theorem headerOk_mode (o : Operand) : headerOk o.mode = true := by
  cases o with
  | literal v => rfl
  | ref b off => cases b <;> rfl

end Sys2Proof
end

