-- ==== Sys2Proof/Laws/Memory.lean ====
section
/-! SUPPORT. Program memory as a canonical list: what a read sees after a write, and that every operation keeps the form. -/

namespace Sys2Proof.Machine

@[simp] theorem Memory.read_nil (a : Nat) : Memory.read [] a = 0 := rfl

theorem Memory.eraseCell_cons (c : Nat × Word) (m : Memory) (a : Nat) :
    Memory.eraseCell (c :: m) a = if c.1 = a then m.eraseCell a else c :: m.eraseCell a := by
  by_cases h : c.1 = a <;> simp [Memory.eraseCell, h]

/-- An entry for another address hides nothing. -/
theorem Memory.read_eraseCell_ne {a b : Nat} (h : a ≠ b) (m : Memory) : (m.eraseCell a).read b = m.read b := by
  induction m with
  | nil => rfl
  | cons c m ih =>
    rw [Memory.eraseCell_cons]
    split
    · rename_i hc; simp [Memory.read, ih, hc, h]
    · simp [Memory.read, ih]

/-- After erasing, the address is unlisted. -/
theorem Memory.read_eraseCell_same (m : Memory) (a : Nat) : (m.eraseCell a).read a = 0 := by
  induction m with
  | nil => rfl
  | cons c m ih =>
    rw [Memory.eraseCell_cons]
    split
    · exact ih
    · rename_i hc; simp [Memory.read, hc, ih]

theorem Memory.mem_eraseCell {m : Memory} {a : Nat} {c : Nat × Word} : c ∈ m.eraseCell a ↔ c ∈ m ∧ c.1 ≠ a := by
  simp [Memory.eraseCell]

theorem Memory.mem_insertCell {m : Memory} {a : Nat} {v : Word} {c : Nat × Word} :
    c ∈ Memory.insertCell m a v ↔ c = (a, v) ∨ c ∈ m := by
  induction m with
  | nil => simp [Memory.insertCell]
  | cons d m ih =>
    unfold Memory.insertCell
    split
    · simp
    · simp [ih]; tauto

theorem Memory.read_insertCell_ne {a b : Nat} (h : a ≠ b) (m : Memory) (v : Word) :
    (Memory.insertCell m a v).read b = m.read b := by
  induction m with
  | nil => simp [Memory.insertCell, Memory.read, h]
  | cons c m ih =>
    unfold Memory.insertCell
    split
    · simp [Memory.read, h]
    · simp [Memory.read, ih]

theorem Memory.read_insertCell_same {m : Memory} {a : Nat} (h : ∀ c ∈ m, c.1 ≠ a) (v : Word) :
    (Memory.insertCell m a v).read a = v := by
  induction m with
  | nil => simp [Memory.insertCell, Memory.read]
  | cons c m ih =>
    unfold Memory.insertCell
    split
    · simp [Memory.read]
    · simp [Memory.read, h c (by simp), ih fun d hd => h d (by simp [hd])]

/-- The value written is the value read, in canonical form or not. -/
theorem Memory.read_write_same (m : Memory) (a : Nat) (v : Word) : (m.write a v).read a = v := by
  unfold Memory.write
  split
  · rename_i h; rw [h]; exact Memory.read_eraseCell_same m a
  · exact Memory.read_insertCell_same (fun c hc => (Memory.mem_eraseCell.1 hc).2) v

/-- A write leaves every other address alone. -/
theorem Memory.read_write_ne {a b : Nat} (h : a ≠ b) (m : Memory) (v : Word) : (m.write a v).read b = m.read b := by
  unfold Memory.write
  split
  · exact Memory.read_eraseCell_ne h m
  · rw [Memory.read_insertCell_ne h, Memory.read_eraseCell_ne h]

/-! ### The canonical form -/

theorem Memory.wf_nil : Memory.wf [] := ⟨List.Pairwise.nil, by simp⟩

theorem Memory.wf_eraseCell {m : Memory} (h : m.wf) (a : Nat) : (m.eraseCell a).wf :=
  ⟨h.1.filter _, fun c hc => h.2 c (Memory.mem_eraseCell.1 hc).1⟩

theorem Memory.pairwise_insertCell {m : Memory} (h : m.Pairwise (fun c d => c.1 < d.1)) {a : Nat}
    (ha : ∀ c ∈ m, c.1 ≠ a) (v : Word) : (Memory.insertCell m a v).Pairwise (fun c d => c.1 < d.1) := by
  induction m with
  | nil => simp [Memory.insertCell]
  | cons c m ih =>
    rw [List.pairwise_cons] at h
    unfold Memory.insertCell
    split
    · rename_i hlt
      refine List.pairwise_cons.2 ⟨fun d hd => ?_, List.pairwise_cons.2 h⟩
      rcases List.mem_cons.1 hd with rfl | hd
      · exact hlt
      · exact Nat.lt_trans hlt (h.1 d hd)
    · rename_i hlt
      refine List.pairwise_cons.2 ⟨fun d hd => ?_, ih h.2 fun d hd => ha d (by simp [hd])⟩
      rcases Memory.mem_insertCell.1 hd with rfl | hd
      · have := ha c (by simp); omega
      · exact h.1 d hd

/-- A write inside the array keeps the canonical form. -/
theorem Memory.wf_write {m : Memory} (h : m.wf) {a : Nat} (ha : a < Config.pmWords) (v : Word) : (m.write a v).wf := by
  unfold Memory.write
  split
  · exact Memory.wf_eraseCell h a
  · rename_i hv
    have he := Memory.wf_eraseCell h a
    refine ⟨Memory.pairwise_insertCell he.1 (fun c hc => (Memory.mem_eraseCell.1 hc).2) v, fun c hc => ?_⟩
    rcases Memory.mem_insertCell.1 hc with rfl | hc
    · exact ⟨hv, ha⟩
    · exact he.2 c hc

theorem State.reset_pm_wf : State.reset.pm.wf := Memory.wf_nil

/-- A load inside the array keeps the canonical form. -/
theorem Memory.wf_writeFrom {m : Memory} (h : m.wf) {k : Nat} {ws : List Word} (hk : k + ws.length ≤ Config.pmWords) :
    (m.writeFrom k ws).wf := by
  induction ws generalizing m k with
  | nil => exact h
  | cons w ws ih =>
    simp only [List.length_cons] at hk
    exact ih (Memory.wf_write h (by omega) w) (by omega)

/-- What a load leaves at each address (R203): the program's words from `k` on, everything else as before. -/
theorem Memory.read_writeFrom (m : Memory) (k : Nat) (ws : List Word) (a : Nat) :
    (m.writeFrom k ws).read a = if h : k ≤ a ∧ a - k < ws.length then ws[a - k]'h.2 else m.read a := by
  induction ws generalizing m k with
  | nil => simp [Memory.writeFrom]
  | cons w ws ih =>
    rw [Memory.writeFrom, ih]
    by_cases hak : a = k
    · subst hak
      simp [Memory.read_write_same]
    · rw [Memory.read_write_ne (Ne.symm hak)]
      by_cases hlt : k < a
      · obtain ⟨d, rfl⟩ : ∃ d, a = k + 1 + d := ⟨a - (k + 1), by omega⟩
        have e1 : k + 1 + d - (k + 1) = d := by omega
        have e2 : k + 1 + d - k = d + 1 := by omega
        simp [e1, e2, show k ≤ k + 1 + d by omega]
      · rw [dif_neg (by omega), dif_neg (by omega)]

end Sys2Proof.Machine
end

