-- ==== Sys2Proof/Laws/State.lean ====
section
/-! SUPPORT. One lemma per field of State per update of it, and the system registers under each update. -/

namespace Sys2Proof

/-! The named sizes as numerals, for linear arithmetic. -/

theorem Config.pmWords_eq : Config.pmWords = 4096 := rfl
theorem Config.srWords_eq : Config.srWords = 256 := rfl
theorem Config.instructionWidth_eq : Config.instructionWidth = 3 := rfl
theorem Config.maxPc_eq : Config.maxPc = 1364 := rfl

end Sys2Proof

namespace Sys2Proof.Machine

@[simp] theorem State.setReg_pm (s : State) (i : Fin Config.srWords) (v : Word) : (s.setReg i v).pm = s.pm := rfl
@[simp] theorem State.setReg_x (s : State) (i : Fin Config.srWords) (v : Word) : (s.setReg i v).x = s.x.set i.val v i.isLt := rfl
@[simp] theorem State.setReg_runState (s : State) (i : Fin Config.srWords) (v : Word) : (s.setReg i v).runState = s.runState := rfl
@[simp] theorem State.setReg_haltCause (s : State) (i : Fin Config.srWords) (v : Word) : (s.setReg i v).haltCause = s.haltCause := rfl
@[simp] theorem State.setReg_out (s : State) (i : Fin Config.srWords) (v : Word) : (s.setReg i v).out = s.out := rfl

@[simp] theorem State.setPm_pm (s : State) (m : Memory) : (s.setPm m).pm = m := rfl
@[simp] theorem State.setPm_x (s : State) (m : Memory) : (s.setPm m).x = s.x := rfl
@[simp] theorem State.setPm_runState (s : State) (m : Memory) : (s.setPm m).runState = s.runState := rfl
@[simp] theorem State.setPm_haltCause (s : State) (m : Memory) : (s.setPm m).haltCause = s.haltCause := rfl
@[simp] theorem State.setPm_out (s : State) (m : Memory) : (s.setPm m).out = s.out := rfl

@[simp] theorem State.emit_pm (s : State) (bs : List Byte) : (s.emit bs).pm = s.pm := rfl
@[simp] theorem State.emit_x (s : State) (bs : List Byte) : (s.emit bs).x = s.x := rfl
@[simp] theorem State.emit_runState (s : State) (bs : List Byte) : (s.emit bs).runState = s.runState := rfl
@[simp] theorem State.emit_haltCause (s : State) (bs : List Byte) : (s.emit bs).haltCause = s.haltCause := rfl
@[simp] theorem State.emit_out (s : State) (bs : List Byte) : (s.emit bs).out = s.out ++ bs := rfl

@[simp] theorem State.halt_pm (s : State) (c : HaltCause) : (s.halt c).pm = s.pm := rfl
@[simp] theorem State.halt_x (s : State) (c : HaltCause) : (s.halt c).x = s.x := rfl
@[simp] theorem State.halt_runState (s : State) (c : HaltCause) : (s.halt c).runState = .halted := rfl
@[simp] theorem State.halt_haltCause (s : State) (c : HaltCause) : (s.halt c).haltCause = c := rfl
@[simp] theorem State.halt_out (s : State) (c : HaltCause) : (s.halt c).out = s.out := rfl

theorem State.getReg_eq (s : State) (i : Fin Config.srWords) : s.getReg i = s.x[i.val] := rfl

@[simp] theorem State.getReg_setReg_same (s : State) (i : Fin Config.srWords) (v : Word) : (s.setReg i v).getReg i = v := by
  simp [State.getReg_eq]

theorem State.getReg_setReg (s : State) (i j : Fin Config.srWords) (v : Word) :
    (s.setReg i v).getReg j = if i = j then v else s.getReg j := by
  simp [State.getReg_eq, Vector.getElem_set, Fin.ext_iff]

theorem State.getReg_setReg_ne (s : State) {i j : Fin Config.srWords} (h : i ≠ j) (v : Word) :
    (s.setReg i v).getReg j = s.getReg j := by
  simp [State.getReg_setReg, h]

/-- The registers are what they read as. -/
theorem State.x_ext {s t : State} (h : ∀ i, t.getReg i = s.getReg i) : t.x = s.x :=
  Vector.ext fun i hi => h ⟨i, hi⟩

@[simp] theorem State.setPm_getReg (s : State) (m : Memory) (i : Fin Config.srWords) : (s.setPm m).getReg i = s.getReg i := rfl
@[simp] theorem State.setPm_pc (s : State) (m : Memory) : (s.setPm m).pc = s.pc := rfl
@[simp] theorem State.emit_getReg (s : State) (bs : List Byte) (i : Fin Config.srWords) : (s.emit bs).getReg i = s.getReg i := rfl
@[simp] theorem State.emit_pc (s : State) (bs : List Byte) : (s.emit bs).pc = s.pc := rfl
@[simp] theorem State.halt_getReg (s : State) (c : HaltCause) (i : Fin Config.srWords) : (s.halt c).getReg i = s.getReg i := rfl
@[simp] theorem State.halt_pc (s : State) (c : HaltCause) : (s.halt c).pc = s.pc := rfl

@[simp] theorem State.setReg_pcReg_pc (s : State) (v : Word) : (s.setReg Config.pcReg v).pc = v := by simp [State.pc]

@[simp] theorem State.reset_getReg (i : Fin Config.srWords) : State.reset.getReg i = 0 := by
  simp [State.getReg_eq, State.reset]

@[simp] theorem State.reset_pc : State.reset.pc = 0 := State.reset_getReg _

/-! ### The entry of a fatal condition, and the advance -/

@[simp] theorem State.raise_pm (s : State) (c : FatalCondition) : (s.raise c).pm = s.pm := rfl
@[simp] theorem State.raise_x (s : State) (c : FatalCondition) : (s.raise c).x = s.x := rfl
@[simp] theorem State.raise_runState (s : State) (c : FatalCondition) : (s.raise c).runState = .halted := rfl
@[simp] theorem State.raise_haltCause (s : State) (c : FatalCondition) :
    (s.raise c).haltCause = .fault (c.record s.pc) := rfl
@[simp] theorem State.raise_out (s : State) (c : FatalCondition) : (s.raise c).out = s.out := rfl
@[simp] theorem State.raise_getReg (s : State) (c : FatalCondition) (i : Fin Config.srWords) :
    (s.raise c).getReg i = s.getReg i := rfl
@[simp] theorem State.raise_pc (s : State) (c : FatalCondition) : (s.raise c).pc = s.pc := rfl

/-! Which condition a record comes from. -/

@[simp] theorem FatalCondition.record_eq_invalidWriteTarget {c : FatalCondition} {pc p : Word} :
    c.record pc = .invalidWriteTarget p ↔ c = .invalidWriteTarget ∧ p = pc := by
  cases c <;> simp [FatalCondition.record, eq_comm]

@[simp] theorem FatalCondition.record_eq_divisionByZero {c : FatalCondition} {pc p : Word} :
    c.record pc = .divisionByZero p ↔ c = .divisionByZero ∧ p = pc := by
  cases c <;> simp [FatalCondition.record, eq_comm]

@[simp] theorem FatalCondition.record_pc (c : FatalCondition) (pc : Word) : (c.record pc).pc = pc := by
  cases c <;> rfl

@[simp] theorem State.advance_pm (s : State) : s.advance.pm = s.pm := rfl
@[simp] theorem State.advance_runState (s : State) : s.advance.runState = s.runState := rfl
@[simp] theorem State.advance_haltCause (s : State) : s.advance.haltCause = s.haltCause := rfl
@[simp] theorem State.advance_out (s : State) : s.advance.out = s.out := rfl
@[simp] theorem State.advance_pc (s : State) : s.advance.pc = s.pc + 1 := by simp [State.advance]

theorem State.advance_getReg_ne (s : State) {i : Fin Config.srWords} (h : i ≠ Config.pcReg) :
    s.advance.getReg i = s.getReg i :=
  State.getReg_setReg_ne s (Ne.symm h) _

@[simp] theorem finishStep_pm (s : State) : (finishStep s).pm = s.pm := by
  unfold finishStep; split <;> rfl
@[simp] theorem finishStep_runState (s : State) : (finishStep s).runState = s.runState := by
  unfold finishStep; split <;> rfl
@[simp] theorem finishStep_haltCause (s : State) : (finishStep s).haltCause = s.haltCause := by
  unfold finishStep; split <;> rfl
@[simp] theorem finishStep_out (s : State) : (finishStep s).out = s.out := by
  unfold finishStep; split <;> rfl

theorem finishStep_running {s : State} (h : s.runState = .running) : finishStep s = s.advance := by
  simp [finishStep, h]

theorem finishStep_halted {s : State} (h : s.runState = .halted) : finishStep s = s := by
  simp [finishStep, h]

end Sys2Proof.Machine
end

