-- ==== Sys2Proof/Laws/Ops.lean ====
section
/-! SUPPORT. One specification lemma per shared operation: locations, banks, operands, the string, fetch. -/

namespace Sys2Proof.Machine

/-! ### Locations -/

theorem State.readLoc_reg {s : State} {i : Nat} (h : i < Config.srWords) :
    s.readLoc (.reg i) = some (s.getReg ⟨i, h⟩) := by
  simp [State.readLoc, h]

theorem State.readLoc_pm {s : State} {a : Nat} (h : a < Config.pmWords) : s.readLoc (.pm a) = some (s.pm.read a) := by
  simp [State.readLoc, h]

/-- A location is readable exactly when it lies inside its array. -/
theorem State.readLoc_eq_none {s : State} {l : Loc} : s.readLoc l = none ↔ l.inArray = false := by
  cases l <;> simp [State.readLoc, Loc.inArray]

/-- A location is writable exactly when it lies inside its array. -/
theorem State.writeLoc_eq_none {s : State} {l : Loc} {v : Word} : s.writeLoc l v = none ↔ l.inArray = false := by
  cases l <;> simp [State.writeLoc, Loc.inArray]

/-- A write inside the array succeeds. -/
theorem State.writeLoc_isSome {s : State} {l : Loc} (h : l.inArray = true) (v : Word) : ∃ t, s.writeLoc l v = some t := by
  cases hw : s.writeLoc l v with
  | some t => exact ⟨t, rfl⟩
  | none => simp [State.writeLoc_eq_none.1 hw] at h

theorem State.readLoc_isSome {s : State} {l : Loc} (h : l.inArray = true) : ∃ w, s.readLoc l = some w := by
  cases hw : s.readLoc l with
  | some w => exact ⟨w, rfl⟩
  | none => simp [State.readLoc_eq_none.1 hw] at h

/-- What a write of one location does to the locations: the target holds the value, every other is as before. -/
theorem State.readLoc_writeLoc {s t : State} {l : Loc} {v : Word} (h : s.writeLoc l v = some t) (k : Loc) :
    t.readLoc k = if k = l then some v else s.readLoc k := by
  cases l with
  | reg i =>
    simp only [State.writeLoc] at h
    split at h
    · rename_i hi
      cases h
      cases k with
      | reg j =>
        by_cases hj : j < Config.srWords
        · simp only [State.readLoc, hj, dite_true, State.getReg_setReg, Fin.mk.injEq, Loc.reg.injEq]
          by_cases hij : i = j <;> simp [hij, eq_comm]
        · have : j ≠ i := by rintro rfl; exact hj hi
          simp [State.readLoc, this, hj]
      | pm a => simp [State.readLoc]
    · cases h
  | pm a =>
    simp only [State.writeLoc] at h
    split at h
    · rename_i ha
      cases h
      cases k with
      | reg j => simp [State.readLoc]
      | pm b =>
        by_cases hb : b = a
        · subst hb; simp [State.readLoc, ha, Memory.read_write_same]
        · simp [State.readLoc, hb, Memory.read_write_ne (Ne.symm hb)]
    · cases h

/-- What a write of one location leaves alone beside the two arrays. -/
theorem State.writeLoc_frame {s t : State} {l : Loc} {v : Word} (h : s.writeLoc l v = some t) :
    t.runState = s.runState ∧ t.haltCause = s.haltCause ∧ t.out = s.out := by
  cases l <;> simp only [State.writeLoc] at h <;> split at h <;> cases h <;> simp

theorem State.writeLoc_wf {s t : State} {l : Loc} {v : Word} (h : s.writeLoc l v = some t) (hs : s.pm.wf) : t.pm.wf := by
  cases l <;> simp only [State.writeLoc] at h <;> split at h <;> cases h
  · exact hs
  · exact Memory.wf_write hs (by assumption) v

/-! ### Banks -/

/-- A bank read in bounds gives the Word of its target; out of bounds it raises the violation with the operand's own
offset (R35, R36). -/
theorem bankRead_eq_ok {s : State} {b : Bank} {off : Nat} {w : Word} :
    bankRead s b off = .ok w ↔ s.readLoc (bankTarget s b off) = some w := by
  unfold bankRead; split <;> simp_all

theorem bankRead_in {s : State} {b : Bank} {off : Nat} (h : inBounds s b off = true) : ∃ w, bankRead s b off = .ok w :=
  (State.readLoc_isSome h).imp fun _ => bankRead_eq_ok.2

theorem bankRead_out {s : State} {b : Bank} {off : Nat} (h : inBounds s b off = false) :
    bankRead s b off = .error (.boundsViolation (.bank b) off) := by
  simp [bankRead, State.readLoc_eq_none.2 h]

/-- The one error a bank read has. -/
theorem bankRead_eq_error {s : State} {b : Bank} {off : Nat} {c : FatalCondition} :
    bankRead s b off = .error c ↔ inBounds s b off = false ∧ c = .boundsViolation (.bank b) off := by
  cases h : inBounds s b off with
  | true => obtain ⟨w, hw⟩ := bankRead_in h; simp [hw]
  | false => simp [bankRead_out h, eq_comm]

theorem bankWrite_eq_ok {s t : State} {b : Bank} {off : Nat} {v : Word} :
    bankWrite s b off v = .ok t ↔ s.writeLoc (bankTarget s b off) v = some t := by
  unfold bankWrite; split <;> simp_all

theorem bankWrite_in {s : State} {b : Bank} {off : Nat} (h : inBounds s b off = true) (v : Word) :
    ∃ t, bankWrite s b off v = .ok t :=
  (State.writeLoc_isSome h v).imp fun _ => bankWrite_eq_ok.2

theorem bankWrite_out {s : State} {b : Bank} {off : Nat} (h : inBounds s b off = false) (v : Word) :
    bankWrite s b off v = .error (.boundsViolation (.bank b) off) := by
  simp [bankWrite, State.writeLoc_eq_none.2 h]

theorem bankWrite_eq_error {s : State} {b : Bank} {off : Nat} {v : Word} {c : FatalCondition} :
    bankWrite s b off v = .error c ↔ inBounds s b off = false ∧ c = .boundsViolation (.bank b) off := by
  cases h : inBounds s b off with
  | true => obtain ⟨w, hw⟩ := bankWrite_in h v; simp [hw]
  | false => simp [bankWrite_out h, eq_comm]

/-! ### Operands -/

@[simp] theorem getOperand_literal (s : State) (v : Word) : getOperand s (.literal v) = .ok v := rfl
@[simp] theorem getOperand_ref (s : State) (b : Bank) (off : Word) :
    getOperand s (.ref b off) = bankRead s b off.toNat := rfl
@[simp] theorem setOperand_literal (s : State) (w v : Word) :
    setOperand s (.literal w) v = .error .invalidWriteTarget := rfl
@[simp] theorem setOperand_ref (s : State) (b : Bank) (off v : Word) :
    setOperand s (.ref b off) v = bankWrite s b off.toNat v := rfl

/-- A condition that an operand access or a string can raise in a state: the offset is really out of bounds. -/
def FatalCondition.OutOfBank (s : State) (c : FatalCondition) : Prop :=
  ∃ b off, c = .boundsViolation (.bank b) off ∧ inBounds s b off = false ∧ off ≤ 65535

theorem bankRead_error_outOfBank {s : State} {b : Bank} {off : Word} {c : FatalCondition}
    (h : bankRead s b off.toNat = .error c) : c.OutOfBank s :=
  ⟨b, off.toNat, (bankRead_eq_error.1 h).2, (bankRead_eq_error.1 h).1, Nat.le_of_lt_succ (word_toNat_lt off)⟩

theorem getOperand_error {s : State} {o : Operand} {c : FatalCondition} (h : getOperand s o = .error c) :
    c.OutOfBank s := by
  cases o with
  | literal v => simp at h
  | ref b off => exact bankRead_error_outOfBank h

/-- `Set` succeeds only on a reference in bounds, and is then the write of its target. -/
theorem setOperand_ok {s t : State} {o : Operand} {v : Word} (h : setOperand s o v = .ok t) :
    ∃ b off, o = .ref b off ∧ s.writeLoc (bankTarget s b off.toNat) v = some t := by
  cases o with
  | literal w => simp at h
  | ref b off => exact ⟨b, off, rfl, bankWrite_eq_ok.1 h⟩

theorem setOperand_error {s : State} {o : Operand} {v : Word} {c : FatalCondition} (h : setOperand s o v = .error c) :
    c = .invalidWriteTarget ∨ c.OutOfBank s := by
  cases o with
  | literal w => simp at h; exact .inl h.symm
  | ref b off =>
    have := bankWrite_eq_error.1 h
    exact .inr ⟨b, off.toNat, this.2, this.1, Nat.le_of_lt_succ (word_toNat_lt off)⟩

/-! ### The string of syscall 1 -/

/-- With cells left, the offset is in bounds; with none left it is not. -/
theorem inBounds_iff_cellsFrom {s : State} {b : Bank} {off : Nat} : inBounds s b off = true ↔ 0 < cellsFrom s b off := by
  cases b <;> simp [inBounds, cellsFrom, bankTarget, Loc.inArray]

theorem cellsFrom_succ {s : State} {b : Bank} {off : Nat} : cellsFrom s b (off + 1) = cellsFrom s b off - 1 := by
  cases b <;> simp [cellsFrom, bankTarget] <;> omega

theorem cellsFrom_le {s : State} {b : Bank} {off : Nat} : cellsFrom s b off ≤ Config.pmWords := by
  have := Config.pmWords_eq; have := Config.srWords_eq
  cases b <;> simp only [cellsFrom, bankTarget] <;> omega

/-- The string at a reference, one cell at a time, as the loop of R153 has it. -/
theorem stringAt_eq (s : State) (b : Bank) (off : Nat) :
    stringAt s b off =
      match bankRead s b off with
      | .error c => ([], some c)
      | .ok w =>
        if hiByte w = 0 then ([], none)
        else if loByte w = 0 then ([hiByte w], none)
        else (hiByte w :: loByte w :: (stringAt s b (off + 1)).1, (stringAt s b (off + 1)).2) := by
  unfold stringAt
  rw [cellsFrom_succ]
  cases hn : cellsFrom s b off with
  | zero =>
    have : inBounds s b off = false := by
      have := mt (inBounds_iff_cellsFrom (s := s) (b := b) (off := off)).1 (by omega); simpa using this
    simp [stringFrom, bankRead_out this]
  | succ n => rfl

/-- A string ends in a condition only by running out of its bank. -/
theorem stringFrom_error {s : State} {b : Bank} {n off : Nat} {c : FatalCondition}
    (hn : n = cellsFrom s b off) (hoff : off ≤ 65535) (h : (stringFrom s b n off).2 = some c) : c.OutOfBank s := by
  induction n generalizing off with
  | zero =>
    have hb : inBounds s b off = false := by
      have := mt (inBounds_iff_cellsFrom (s := s) (b := b) (off := off)).1 (by omega); simpa using this
    simp only [stringFrom, Option.some.injEq] at h
    exact ⟨b, off, h.symm, hb, hoff⟩
  | succ n ih =>
    have hin : off < 65535 := by
      have := Config.pmWords_eq; have := Config.srWords_eq
      cases b <;> simp only [cellsFrom, bankTarget] at hn <;> omega
    simp only [stringFrom] at h
    split at h
    · rename_i c' hc
      cases h
      exact ⟨b, off, (bankRead_eq_error.1 hc).2, (bankRead_eq_error.1 hc).1, hoff⟩
    · split at h
      · cases h
      · split at h
        · cases h
        · exact ih (by rw [cellsFrom_succ]; omega) (by omega) h

theorem stringAt_error {s : State} {b : Bank} {off : Word} {c : FatalCondition}
    (h : (stringAt s b off.toNat).2 = some c) : c.OutOfBank s :=
  stringFrom_error rfl (Nat.le_of_lt_succ (word_toNat_lt off)) h

/-- Selector 1 (R152, R153): bytes are emitted, and at most a bounds violation follows. -/
theorem output_cases (s : State) (r : Operand) :
    ∃ bs, output s r = s.emit bs ∨ ∃ c, c.OutOfBank s ∧ output s r = (s.emit bs).raise c := by
  cases r with
  | literal v => exact ⟨[loByte v], .inl rfl⟩
  | ref b off =>
    refine ⟨Config.diagPrefix ++ (stringAt s b off.toNat).1, ?_⟩
    simp only [output]
    split
    · exact .inl rfl
    · rename_i c hc
      exact .inr ⟨c, stringAt_error hc, rfl⟩

/-! ### Fetch -/

theorem memRead_in {s : State} {a : Nat} (h : a < Config.pmWords) : memRead s a = .ok (s.pm.read a) := by
  simp [memRead, State.readLoc_pm h]

theorem memRead_out {s : State} {a : Nat} (h : Config.pmWords ≤ a) :
    memRead s a = .error (.boundsViolation .program a) := by
  have : s.readLoc (.pm a) = none := State.readLoc_eq_none.2 (by simp [Loc.inArray]; omega)
  simp [memRead, this]

/-- A fetch fails only at a word of the instruction that lies outside program memory. -/
theorem fetch_error {s : State} {p : Word} {c : FatalCondition} (h : fetch s p = .error c) :
    ∃ a, c = .boundsViolation .program a ∧ 3 * p.toNat ≤ a ∧ a ≤ 3 * p.toNat + 2 ∧ Config.pmWords ≤ a := by
  have key : ∀ a, memRead s a = .error c → c = .boundsViolation .program a ∧ Config.pmWords ≤ a := by
    intro a ha
    by_cases hlt : a < Config.pmWords
    · simp [memRead_in hlt] at ha
    · rw [memRead_out (by omega)] at ha
      exact ⟨by simpa using ha.symm, by omega⟩
  simp only [fetch, bind, Except.bind, Config.instructionWidth_eq] at h
  split at h
  · cases h; obtain ⟨hc, hp⟩ := key _ ‹_›; exact ⟨_, hc, by omega, by omega, hp⟩
  · split at h
    · cases h; obtain ⟨hc, hp⟩ := key _ ‹_›; exact ⟨_, hc, by omega, by omega, hp⟩
    · split at h
      · cases h; obtain ⟨hc, hp⟩ := key _ ‹_›; exact ⟨_, hc, by omega, by omega, hp⟩
      · cases h

end Sys2Proof.Machine
end

