-- ==== Sys2Proof/Laws/Exec.lean ====
section
/-! SUPPORT. What a meaning, a decode and a step can do, said once. -/

namespace Sys2Proof.Machine

@[simp] theorem complete_ok (s t : State) : complete s (.ok t) = .next t := rfl
@[simp] theorem complete_error (s : State) (c : FatalCondition) : complete s (.error c) = .next (s.raise c) := rfl

/-! ### The arithmetic on Words -/

theorem addWords_eq (a b : Word) : addWords a b = a + b := by
  apply BitVec.eq_of_toNat_eq
  simp [addWords, trunc16]; omega

theorem subWords_eq (a b : Word) : subWords a b = a - b := by
  apply BitVec.eq_of_toNat_eq
  simp [subWords, trunc16]; omega

theorem mulWords_eq (a b : Word) : mulWords a b = a * b := by
  apply BitVec.eq_of_toInt_eq
  simp only [mulWords, trunc16, BitVec.toInt_ofInt, BitVec.toInt_mul, ← Int.natCast_mul]
  simp [BitVec.toInt_eq_toNat_bmod]

theorem divWords_eq (a b : Word) : divWords a b = if b = 0 then .error .divisionByZero else .ok (a / b) := by
  unfold divWords
  split
  · rfl
  · congr 1
    apply BitVec.eq_of_toNat_eq
    have h := Nat.div_le_self a.toNat b.toNat
    rw [trunc16, BitVec.ofInt_natCast, BitVec.toNat_ofNat, BitVec.toNat_udiv]
    exact Nat.mod_eq_of_lt (by omega)

/-! ### The handlers, once their reads are known -/

theorem execMove_read {l r : Operand} {s : State} {v : Word} (hl : getOperand s l = .ok v) :
    execMove l r s = complete s (setOperand s r v) := by
  simp [execMove, hl, bind, Except.bind]

theorem execMove_left_fails {l r : Operand} {s : State} {c : FatalCondition} (hl : getOperand s l = .error c) :
    execMove l r s = .next (s.raise c) := by
  simp [execMove, hl, bind, Except.bind]

theorem execBinary_read {op : Word → Word → Except FatalCondition Word} {l r : Operand} {s : State} {a b v : Word}
    (hr : getOperand s r = .ok a) (hl : getOperand s l = .ok b) (hop : op a b = .ok v) :
    execBinary op l r s = complete s (setOperand s r v) := by
  simp [execBinary, hr, hl, hop, bind, Except.bind]

theorem execBinary_right_fails {op : Word → Word → Except FatalCondition Word} {l r : Operand} {s : State}
    {c : FatalCondition} (hr : getOperand s r = .error c) : execBinary op l r s = .next (s.raise c) := by
  simp [execBinary, hr, bind, Except.bind]

theorem execBinary_left_fails {op : Word → Word → Except FatalCondition Word} {l r : Operand} {s : State} {a : Word}
    {c : FatalCondition} (hr : getOperand s r = .ok a) (hl : getOperand s l = .error c) :
    execBinary op l r s = .next (s.raise c) := by
  simp [execBinary, hr, hl, bind, Except.bind]

theorem execBinary_op_fails {op : Word → Word → Except FatalCondition Word} {l r : Operand} {s : State} {a b : Word}
    {c : FatalCondition} (hr : getOperand s r = .ok a) (hl : getOperand s l = .ok b) (hop : op a b = .error c) :
    execBinary op l r s = .next (s.raise c) := by
  simp [execBinary, hr, hl, hop, bind, Except.bind]

theorem execSyscall_read {l r : Operand} {s : State} {sel : Word} (hl : getOperand s l = .ok sel) :
    execSyscall l r s = .next (if sel = 0 then s.halt .exit else if sel = 1 then output s r else s) := by
  simp only [execSyscall, hl, bind, Except.bind]
  split <;> [rfl; split <;> rfl]

theorem execSyscall_left_fails {l r : Operand} {s : State} {c : FatalCondition} (hl : getOperand s l = .error c) :
    execSyscall l r s = .next (s.raise c) := by
  simp [execSyscall, hl, bind, Except.bind]

/-! ### What a handler can do -/

/-- The conditions a handler raises, each with its cause present in the state (R173 to R175). -/
def FatalCondition.FromHandler (s : State) (c : FatalCondition) : Prop :=
  c = .invalidWriteTarget ∨ c = .divisionByZero ∨ c.OutOfBank s

/-- Everything a handler can do to a state (R104): nothing, one write of one location, output, termination, or a fatal
condition, the last perhaps after output. -/
inductive Effect (s : State) : State → Prop where
  | none : Effect s s
  | write (l : Loc) (v : Word) (t : State) (h : s.writeLoc l v = some t) : Effect s t
  | emits (bs : List Byte) : Effect s (s.emit bs)
  | exits : Effect s (s.halt .exit)
  | raises (bs : List Byte) (c : FatalCondition) (h : c.FromHandler s) : Effect s ((s.emit bs).raise c)

theorem State.emit_nil (s : State) : s.emit [] = s := by cases s; simp [State.emit]

theorem Effect.raise_only {s : State} {c : FatalCondition} (h : c.FromHandler s) : Effect s (s.raise c) := by
  have := Effect.raises [] c h
  rwa [State.emit_nil] at this

theorem Effect.of_set {s : State} {r : Operand} {v : Word} : ∃ t, complete s (setOperand s r v) = .next t ∧ Effect s t := by
  cases h : setOperand s r v with
  | ok t =>
    obtain ⟨b, off, -, hw⟩ := setOperand_ok h
    exact ⟨t, rfl, .write _ v t hw⟩
  | error c =>
    refine ⟨_, rfl, .raise_only ?_⟩
    rcases setOperand_error h with h | h
    · exact .inl h
    · exact .inr (.inr h)

theorem execBinary_effect {op : Word → Word → Except FatalCondition Word}
    (hop : ∀ a b c, op a b = .error c → c = .divisionByZero) (l r : Operand) (s : State) :
    ∃ t, execBinary op l r s = .next t ∧ Effect s t := by
  cases hr : getOperand s r with
  | error c => exact ⟨_, execBinary_right_fails hr, .raise_only (.inr (.inr (getOperand_error hr)))⟩
  | ok a =>
    cases hl : getOperand s l with
    | error c => exact ⟨_, execBinary_left_fails hr hl, .raise_only (.inr (.inr (getOperand_error hl)))⟩
    | ok b =>
      cases hv : op a b with
      | error c => exact ⟨_, execBinary_op_fails hr hl hv, .raise_only (.inr (.inl (hop a b c hv)))⟩
      | ok v => rw [execBinary_read hr hl hv]; exact Effect.of_set

/-- Every instruction answers a next state, by one of the effects above. -/
theorem exec_effect (i : Instr) (s : State) : ∃ t, exec i s = .next t ∧ Effect s t := by
  cases i with
  | pass l r => exact ⟨s, rfl, .none⟩
  | move l r =>
    show ∃ t, execMove l r s = .next t ∧ Effect s t
    cases hl : getOperand s l with
    | error c => exact ⟨_, execMove_left_fails hl, .raise_only (.inr (.inr (getOperand_error hl)))⟩
    | ok v => rw [execMove_read hl]; exact Effect.of_set
  | add l r => exact execBinary_effect (by simp) l r s
  | subtract l r => exact execBinary_effect (by simp) l r s
  | multiply l r => exact execBinary_effect (by simp) l r s
  | divide l r =>
    refine execBinary_effect (fun a b c h => ?_) l r s
    unfold divWords at h
    split at h <;> simp at h
    exact h.symm
  | syscall l r =>
    show ∃ t, execSyscall l r s = .next t ∧ Effect s t
    cases hl : getOperand s l with
    | error c => exact ⟨_, execSyscall_left_fails hl, .raise_only (.inr (.inr (getOperand_error hl)))⟩
    | ok sel =>
      rw [execSyscall_read hl]
      refine ⟨_, rfl, ?_⟩
      split
      · exact .exits
      · split
        · obtain ⟨bs, h | ⟨c, hc, h⟩⟩ := output_cases s r <;> rw [h]
          · exact .emits bs
          · exact .raises bs c (.inr (.inr hc))
        · exact .none

/-! ### What a step can do -/

theorem step_halted {s : State} (h : s.runState = .halted) : step s = .fault .halted := by
  simp [step, h]

/-- One step of the host's run of this machine. -/
theorem core_run_succ (k : Nat) (s : State) :
    Host.Core.run Sys2Proof.core (k + 1) s =
      match step s with
      | .next t => Host.Core.run Sys2Proof.core k t
      | .fault f => .fault f
      | .refused r => .refused r := by
  simp only [Host.Core.run, show Sys2Proof.core.step s = step s from rfl]
  cases step s <;> rfl

/-- A step whose fetch or decode fails takes that condition (R106). -/
theorem step_fetch_fails {s : State} (h : s.runState = .running) {c : FatalCondition}
    (hf : fetchDecode s s.pc = .error c) : step s = .next (s.raise c) := by
  simp [step, h, hf]

/-- A step whose fetch and decode succeed runs the instruction and finishes (R106). -/
theorem step_runs {s t : State} {i : Instr} (h : s.runState = .running) (hf : fetchDecode s s.pc = .ok i)
    (he : exec i s = .next t) : step s = .next (finishStep t) := by
  simp [step, h, hf, he]

/-- A step that answers a next state was taken in Running, and either took a condition of fetch or decode or finished a
handler's effect. -/
theorem step_cases {s t : State} (h : step s = .next t) :
    s.runState = .running ∧
      ((∃ c, fetchDecode s s.pc = .error c ∧ t = s.raise c) ∨
        ∃ i u, fetchDecode s s.pc = .ok i ∧ exec i s = .next u ∧ Effect s u ∧ t = finishStep u) := by
  cases hr : s.runState with
  | halted => simp [step_halted hr] at h
  | running =>
    refine ⟨rfl, ?_⟩
    cases hf : fetchDecode s s.pc with
    | error c =>
      rw [step_fetch_fails hr hf] at h
      exact .inl ⟨c, rfl, by simpa using h.symm⟩
    | ok i =>
      obtain ⟨u, hu, he⟩ := exec_effect i s
      rw [step_runs hr hf hu] at h
      exact .inr ⟨i, u, rfl, hu, he, by simpa using h.symm⟩

/-- The conditions of fetch and decode (R171 to R173). -/
theorem fetchDecode_error {s : State} {p : Word} {c : FatalCondition} (h : fetchDecode s p = .error c) :
    (∃ a, c = .boundsViolation .program a ∧ 3 * p.toNat ≤ a ∧ a ≤ 3 * p.toNat + 2 ∧ Config.pmWords ≤ a) ∨
      ∃ ws e, fetch s p = .ok ws ∧ decode ws = .error e ∧ c = decodeFatal e := by
  unfold fetchDecode at h
  split at h
  · cases h; exact .inl (fetch_error ‹_›)
  · split at h
    · cases h; exact .inr ⟨_, _, ‹_›, ‹_›, rfl⟩
    · cases h

/-! ### The host's run -/

theorem runToHalt_halted {n : Nat} {s : State} (h : s.runState = .halted) : runToHalt n s = some s := by
  cases n <;> simp [runToHalt, h]

theorem runToHalt_zero {s : State} (h : s.runState = .running) : runToHalt 0 s = none := by
  simp [runToHalt, h]

theorem runToHalt_succ {n : Nat} {s t : State} (h : step s = .next t) : runToHalt (n + 1) s = runToHalt n t := by
  have hr := (step_cases h).1
  simp [runToHalt, hr, h]

end Sys2Proof.Machine
end

