-- ==== Sys2Proof/Laws/PerInstr.lean ====
section
/-! SUPPORT. Statements made for all instructions, one lemma per constructor of Instr. -/

namespace Sys2Proof.Laws

/-- The fields that encode an instruction pass the check of `WellFormed.lean` (R65, R66). -/
def EncodesWellFormed.Statement (i : Instr) : Prop := (encodeFields i).wellFormed = true

/-- With operands whose headers are addressing modes, only the opcode is left to check. -/
theorem encodeFields_wellFormed {i : Instr} (h : i.opcode.toNat ≤ 6) : EncodesWellFormed.Statement i := by
  simp [EncodesWellFormed.Statement, encodeFields, Fields.wellFormed, Fields.leftHeaderOk, Fields.rightHeaderOk,
    Fields.opcodeOk, headerOk_mode, h]

theorem EncodesWellFormed.pass (left right : Operand) : EncodesWellFormed.Statement (.pass left right) :=
  encodeFields_wellFormed (by simp [Instr.opcode])
theorem EncodesWellFormed.syscall (left right : Operand) : EncodesWellFormed.Statement (.syscall left right) :=
  encodeFields_wellFormed (by simp [Instr.opcode])
theorem EncodesWellFormed.move (left right : Operand) : EncodesWellFormed.Statement (.move left right) :=
  encodeFields_wellFormed (by simp [Instr.opcode])
theorem EncodesWellFormed.add (left right : Operand) : EncodesWellFormed.Statement (.add left right) :=
  encodeFields_wellFormed (by simp [Instr.opcode])
theorem EncodesWellFormed.subtract (left right : Operand) : EncodesWellFormed.Statement (.subtract left right) :=
  encodeFields_wellFormed (by simp [Instr.opcode])
theorem EncodesWellFormed.multiply (left right : Operand) : EncodesWellFormed.Statement (.multiply left right) :=
  encodeFields_wellFormed (by simp [Instr.opcode])
theorem EncodesWellFormed.divide (left right : Operand) : EncodesWellFormed.Statement (.divide left right) :=
  encodeFields_wellFormed (by simp [Instr.opcode])

end Sys2Proof.Laws
end

