-- ==== Sys2Proof/Tests/Slice0.lean ====
section
/-! SUPPORT. The model's own tests. The expected results are those of the vectors of `95_test_vectors.md`, named in each docstring
or section heading, and of the examples of the rules. The `witness_` theorems show that the hypotheses of the statement they are
named after can be met, clause by clause, at the edges of their ranges. -/

namespace Sys2Proof.Tests

open Sys2Proof.Machine

/-- The reset state with some registers and some words of program memory set. -/
def poke (regs : List (Fin 256 × Word)) (mem : List (Nat × Word)) : State :=
  mem.foldl (fun s c => s.setPm (s.pm.write c.1 c.2)) (regs.foldl (fun s c => s.setReg c.1 c.2) State.reset)

/-- The same, with an instruction's words at the program counter. -/
def ready (ws : InstrWords) (regs : List (Fin 256 × Word)) (mem : List (Nat × Word)) : State :=
  placeAtPc (poke regs mem) ws

def nextOf : Host.Outcome State Fault Refusal → Option State
  | .next t => some t
  | .fault _ => none
  | .refused _ => none

/-- The state after one step of `ready`. -/
def after (ws : InstrWords) (regs : List (Fin 256 × Word)) (mem : List (Nat × Word)) : Option State :=
  nextOf (step (ready ws regs mem))

/-! ### WellFormed: each check refuses an ill-formed term -/

theorem test_wellFormed_left_header : Fields.wellFormed ⟨6, 4, 3, 0, 0⟩ = false := by decide
theorem test_wellFormed_right_header : Fields.wellFormed ⟨6, 3, 4, 0, 0⟩ = false := by decide
theorem test_wellFormed_opcode : Fields.wellFormed ⟨7, 3, 3, 0, 0⟩ = false := by decide
theorem test_wellFormed_accepts : Fields.wellFormed ⟨6, 3, 3, 0xFFFF, 0xFFFF⟩ = true := by decide

/-! ### Decoding of written-out words: V-ENC -/

theorem test_decode_pass : decode ⟨0x0033, 9, 8⟩ = .ok (.pass (.ref .system 9) (.ref .system 8)) := by decide
theorem test_decode_syscall : decode ⟨0x0101, 9, 8⟩ = .ok (.syscall (.literal 9) (.ref .data 8)) := by decide
theorem test_decode_move : decode ⟨0x0212, 9, 8⟩ = .ok (.move (.ref .data 9) (.ref .stack 8)) := by decide
theorem test_decode_add : decode ⟨0x0333, 9, 8⟩ = .ok (.add (.ref .system 9) (.ref .system 8)) := by decide
theorem test_decode_subtract : decode ⟨0x0403, 9, 8⟩ = .ok (.subtract (.literal 9) (.ref .system 8)) := by decide
theorem test_decode_multiply : decode ⟨0x0513, 9, 8⟩ = .ok (.multiply (.ref .data 9) (.ref .system 8)) := by decide
theorem test_decode_divide : decode ⟨0x0621, 9, 8⟩ = .ok (.divide (.ref .stack 9) (.ref .data 8)) := by decide
theorem test_decode_unknown_opcode : decode ⟨0xFF33, 0, 0⟩ = .error (.unknownOpcode 255) := by decide
theorem test_decode_left_header_first : decode ⟨0x0759, 0, 0⟩ = .error (.unknownMode .left 5) := by decide
theorem test_decode_header_before_opcode : decode ⟨0x0709, 0, 0⟩ = .error (.unknownMode .right 9) := by decide
theorem test_encode_move : encode (.move (.ref .data 9) (.ref .stack 8)) = ⟨0x0212, 9, 8⟩ := by decide

/-- The `match` value of the `syscall` row of `opcode_table.json`, and R62's view of `move #5, R[0]`. -/
theorem test_table_words :
    decodeTableWord 48 0x010000000000 = some (.syscall (.literal 0) (.literal 0)) ∧
    decodeTableWord 48 0x020300050000 = some (.move (.literal 5) (.ref .system 0)) ∧
    decodeTableWord 48 0x070000000000 = none := by decide

/-- `step` runs a table word from reset (log entry 15). -/
theorem test_withFetchWord :
    (nextOf (step (State.reset.withFetchWord 48 0x020300050000))).map (fun t => (t.getReg 0, t.pc)) = some (5, 1) := by decide

/-! ### One step of each instruction -/

/-- V-PASS-3. -/
theorem test_pass_at_the_last_slot :
    (after ⟨0x0000, 0x1234, 0x5678⟩ [(1, 1364)] []).map (fun t => (t.pc, t.runState)) = some (0x0555, .running) := by decide
/-- V-PASS-2. -/
theorem test_pass_reads_nothing :
    (after ⟨0x0031, 0x270F, 0xFFFF⟩ [] []).map (fun t => (t.pc, t.runState)) = some (1, .running) := by decide

/-- V-MOVE-10: the read goes through the old base. -/
theorem test_move_new_base :
    (after ⟨0x0213, 0x0000, 0x0003⟩ [(3, 100)] [(100, 0x0200)]).map (fun t => (t.getReg 3, t.pc)) = some (0x0200, 1) := by decide
/-- V-MOVE-8. -/
theorem test_move_jump_wraps :
    (after ⟨0x0203, 0xFFFF, 0x0001⟩ [(1, 7)] []).map (fun t => (t.pc, t.runState)) = some (0, .running) := by decide

/-- V-ADD-8: both operands are one cell. -/
theorem test_add_aliased :
    (after ⟨0x0312, 0x0000, 0x0000⟩ [(3, 50), (2, 50)] [(50, 0x9000)]).map (fun t => (t.pm.read 50, t.pc)) =
      some (0x2000, 1) := by decide
/-- V-ADD-10: the right operand is read first. -/
theorem test_add_right_read_first :
    (after ⟨0x0333, 0x0100, 0x012C⟩ [] []).map (fun t => (t.haltCause, t.pc)) =
      some (.fault (.boundsViolation 0 0 (.bank .system) 300), 0) := by decide

/-- V-SUB-6: right minus left. -/
theorem test_subtract_order :
    (after ⟨0x0433, 0x0004, 0x0000⟩ [(0, 0x000A), (4, 0x0003)] []).map (fun t => (t.getReg 0, t.pc)) = some (7, 1) := by decide
/-- V-SUB-2. -/
theorem test_subtract_wraps :
    (after ⟨0x0403, 0x0001, 0x0000⟩ [] []).map (fun t => (t.getReg 0, t.pc)) = some (0xFFFF, 1) := by decide

/-- V-MUL-8. -/
theorem test_multiply_low_half :
    (after ⟨0x0533, 0x0000, 0x0000⟩ [(0, 0x0123)] []).map (fun t => (t.getReg 0, t.pc)) = some (0x4AC9, 1) := by decide
/-- V-MUL-5. -/
theorem test_multiply_unsigned :
    (after ⟨0x0503, 0xFFFF, 0x0000⟩ [(0, 0xFFFF)] []).map (fun t => (t.getReg 0, t.pc)) = some (1, 1) := by decide

/-- V-DIV-15: right divided by left. -/
theorem test_divide_order :
    (after ⟨0x0633, 0x0004, 0x0000⟩ [(0, 0x0064), (4, 0x0007)] []).map (fun t => (t.getReg 0, t.pc)) = some (0x000E, 1) := by
  decide
/-- V-DIV-9: unsigned. -/
theorem test_divide_unsigned :
    (after ⟨0x0603, 0x0002, 0x0000⟩ [(0, 0xFFFE)] []).map (fun t => (t.getReg 0, t.pc)) = some (0x7FFF, 1) := by decide

/-- V-SYS-9: the string ends at the zero low byte. -/
theorem test_syscall_string :
    (after ⟨0x0101, 0x0001, 0x0000⟩ [(3, 6)] [(6, 0x4865), (7, 0x6C6C), (8, 0x6F00), (9, 0x5858)]).map
      (fun t => (t.out, t.pc)) = some (Config.diagPrefix ++ [0x48, 0x65, 0x6C, 0x6C, 0x6F], 1) := rfl
/-- V-SYS-13: the bytes before the fault stay. -/
theorem test_syscall_string_runs_out :
    (after ⟨0x0102, 0x0001, 0x0001⟩ [(2, 4093)] [(4094, 0x4142), (4095, 0x4344)]).map (fun t => (t.out, t.haltCause)) =
      some (Config.diagPrefix ++ [0x41, 0x42, 0x43, 0x44], .fault (.boundsViolation 0 0 (.bank .stack) 3)) := rfl

/-! ### Fetch, faults, programs -/

/-- V-FLT-7. -/
theorem test_fetch_past_the_end :
    (nextOf (step (poke [(1, 1365)] []))).map (fun t => (t.haltCause, t.pc)) =
      some (.fault (.boundsViolation 1365 4095 .program 4096), 1365) := by decide
/-- V-FLT-9. -/
theorem test_fetch_is_not_reduced :
    (nextOf (step (poke [(1, 65535)] []))).map (fun t => t.haltCause) =
      some (.fault (.boundsViolation 65535 196605 .program 196605)) := by decide
/-- V-FLT-1. -/
theorem test_unknown_opcode :
    (after ⟨0x0700, 0, 0⟩ [(0, 0x1234)] []).map (fun t => (t.haltCause, t.getReg 0)) =
      some (.fault (.unknownOpcode 0 7), 0x1234) := by decide
/-- V-FLT-12. -/
theorem test_zero_divisor_before_literal :
    (after ⟨0x0600, 0, 5⟩ [] []).map (fun t => t.haltCause) = some (.fault (.divisionByZero 0)) := by decide

/-- Program P6: the second step runs the word the first one stored. -/
theorem test_self_modifying_code :
    ((State.load [0x0202, 0x0100, 0x0003, 0x0700, 0, 0, 0x0100, 0, 0] 9 0).bind (run 2)).map (fun f => f.haltCause) =
      some .exit := by decide

/-- V-IMG-1. -/
theorem test_image :
    parseImage [0, 6, 1, 1, 0, 1, 0, 0, 1, 0, 0, 0, 0, 0, 0x48, 0x69, 0, 0] =
      some ⟨6, [0x0101, 1, 0, 0x0100, 0, 0, 0x4869, 0], 8⟩ := by decide
/-- V-IMG-4. -/
theorem test_image_too_short : parseImage [0] = none := by decide

/-! ### The hypotheses of the statements can be met -/

theorem witness_DecodeInvertsEncode :
    decode ⟨0x0633, 0xFFFF, 0x0001⟩ = .ok (.divide (.ref .system 0xFFFF) (.ref .system 1)) := by decide

/-- One w0 for each clause, at the edges. -/
theorem witness_DecodeFailsInOrder :
    (3 < 0x0040 / 16 % 16) ∧ (0x0034 / 16 % 16 ≤ 3 ∧ 3 < 0x0034 % 16) ∧
    (0x0733 / 16 % 16 ≤ 3 ∧ 0x0733 % 16 ≤ 3 ∧ 6 < 0x0733 / 256) ∧
    (0x0633 / 16 % 16 ≤ 3 ∧ 0x0633 % 16 ≤ 3 ∧ 0x0633 / 256 ≤ 6) := by decide

theorem witness_ResolveFollowsTheTable :
    resolve 3 0xFFFF .left = .ok (.ref .system 65535) ∧ 4 ≤ (4 : Header).toNat ∧ 4 ≤ (15 : Header).toNat := by decide

/-- Offsets 255 and 256, sums 4095 and 4096, bases 4095 and 4096. -/
theorem witness_BoundsOfTheThreeBanks :
    inBounds State.reset .system 255 = true ∧ inBounds State.reset .system 256 = false ∧
    inBounds (poke [(2, 4095)] []) .stack 0 = true ∧ inBounds (poke [(2, 4095)] []) .stack 1 = false ∧
    inBounds (poke [(3, 6)] []) .data 4089 = true ∧ inBounds (poke [(3, 6)] []) .data 4090 = false ∧
    4096 ≤ ((poke [(2, 4096)] []).getReg 2).toNat ∧ 4096 ≤ ((poke [(3, 4096)] []).getReg 3).toNat := by decide

/-- The sum of V-RES-14 is 65536 and is not wrapped to 0. -/
theorem witness_BankReadGivesTheTarget :
    inBounds (poke [(2, 65535)] []) .stack 1 = false ∧ 255 < 256 ∧
    inBounds (poke [(2, 1)] []) .stack 4094 = true ∧ inBounds (poke [(3, 4095)] []) .data 0 = true := by decide

theorem witness_BankWriteChangesOneCell :
    inBounds State.reset .data 4096 = false ∧ inBounds State.reset .data 4095 = true ∧
    bankWrite State.reset .system 1 7 = .ok (State.reset.setReg 1 7) ∧
    (bankWrite State.reset .system 2 4095 = .ok (State.reset.setReg 2 4095) ∧ (4095 : Word).toNat + 0 < 4096) ∧
    (bankWrite State.reset .system 3 0 = .ok (State.reset.setReg 3 0) ∧ (0 : Word).toNat + 4095 < 4096) :=
  ⟨by decide, by decide, rfl, ⟨rfl, by decide⟩, rfl, by decide⟩

theorem witness_GetReadsLiteralOrBank :
    let s := poke [(3, 6)] [(6, 0x4869)]
    inBounds s .system (255 : Word).toNat = true ∧ inBounds s .system (256 : Word).toNat = false ∧
    s.getReg 3 = 6 ∧ s.pm.read 6 = 0x4869 := by decide

theorem witness_SetOnReferenceWritesTheCell :
    let s := poke [(2, 14)] []
    inBounds s .stack (4082 : Word).toNat = false ∧ inBounds s .stack (4081 : Word).toNat = true ∧ s.getReg 2 = 14 := by decide

/-- The cell 4095, as `S[0]` and as `D[5]`. -/
theorem witness_StackAndDataAlias :
    let s := poke [(2, 4095), (3, 4090)] []
    (s.getReg 2).toNat + 0 = (s.getReg 3).toNat + 5 ∧
    (∃ t, bankWrite s .stack 0 7 = .ok t) ∧ (∃ t, bankWrite s .data 5 7 = .ok t) :=
  ⟨by decide, ⟨_, rfl⟩, ⟨_, rfl⟩⟩

theorem witness_CanonicalMemoryIsUnique :
    Memory.wf [(0, 1), (4095, 2)] ∧ (∀ a, a < 4096 → Memory.read [(0, 1), (4095, 2)] a = (Memory.write [(4095, 2)] 0 1).read a) :=
  ⟨by decide, fun _ _ => rfl⟩

theorem witness_PassDoesNothing :
    ((ready ⟨0x0033, 1, 2⟩ [] []).runState = .running ∧
      fetchDecode (ready ⟨0x0033, 1, 2⟩ [] []) 0 = .ok (.pass (.ref .system 1) (.ref .system 2))) ∧
    (0x0033 / 256 = 0 ∧ 0x0033 / 16 % 16 ≤ 3 ∧ 0x0033 % 16 ≤ 3) ∧
    ((poke [(1, 4)] []).runState = .running ∧ (poke [(1, 4)] []).pc = 4 ∧
      fetch (poke [(1, 4)] []) 4 = .ok ⟨0, 0, 0⟩) := by decide

/-- A destination at the last word of program memory. -/
theorem witness_MoveCopiesTheWord :
    let s := poke [(0, 9), (2, 4095)] []
    getOperand s (.ref .system 0) = .ok 9 ∧ inBounds s .stack (0 : Word).toNat = true ∧
    getOperand s (.literal 0xFFFF) = .ok 0xFFFF ∧ inBounds s .system (255 : Word).toNat = true := by decide

theorem witness_AddWrapsModulo :
    let s := poke [(255, 0xFFFF)] []
    getOperand s (.ref .system 255) = .ok 0xFFFF ∧ getOperand s (.literal 0xFFFF) = .ok 0xFFFF := by decide

theorem witness_SubtractIsRightMinusLeft :
    let s := poke [(3, 4095)] [(4095, 3)]
    getOperand s (.ref .data 0) = .ok 3 ∧ getOperand s (.literal 0xFFFF) = .ok 0xFFFF := by decide

theorem witness_MultiplyKeepsTheLowHalf :
    let s := poke [(2, 4095)] [(4095, 0xFFFF)]
    getOperand s (.ref .stack 0) = .ok 0xFFFF ∧ getOperand s (.ref .stack 0) = .ok 0xFFFF := by decide

theorem witness_DivideGivesTheFloor :
    let s := poke [(0, 0xFFFF)] []
    getOperand s (.ref .system 0) = .ok 0xFFFF ∧ getOperand s (.literal 1) = .ok 1 ∧ (1 : Word) ≠ 0 := by decide

theorem witness_SelectorZeroTerminates :
    let s := ready ⟨0x0130, 0x0000, 0x0000⟩ [] []
    getOperand s (.ref .system 0) = .ok 0 ∧ s.runState = .running ∧ s.haltCause = .none ∧
    fetchDecode s s.pc = .ok (.syscall (.ref .system 0) (.literal 0)) ∧
    ∃ t, exec (.syscall (.ref .system 0) (.literal 0)) s = .next t := ⟨rfl, rfl, rfl, rfl, _, rfl⟩

theorem witness_LiteralOutputIsItsLowByte :
    let s := ready ⟨0x0100, 0x0001, 0xFFFF⟩ [] []
    getOperand s (.literal 1) = .ok 1 ∧ s.runState = .running ∧
    fetchDecode s s.pc = .ok (.syscall (.literal 1) (.literal 0xFFFF)) := by decide

/-- Selectors 2 and 65535. -/
theorem witness_OtherSelectorsDoNothing :
    let s := ready ⟨0x0103, 0x0002, 0x270F⟩ [] []
    getOperand s (.literal 2) = .ok 2 ∧ getOperand s (.literal 0xFFFF) = .ok 0xFFFF ∧
    2 ≤ (2 : Word).toNat ∧ 2 ≤ (0xFFFF : Word).toNat ∧ s.runState = .running ∧
    fetchDecode s s.pc = .ok (.syscall (.literal 2) (.ref .system 9999)) := by decide

/-- "Hi" and its terminator in `R[254]` and `R[255]`, one whole Word before the zero byte; and a Word with only its low byte
zero. -/
theorem witness_StringOutputStopsAtZeroByte :
    let s := poke [(254, 0x4869), (253, 0x4800)] []
    getOperand s (.literal 1) = .ok 1 ∧
    (∀ (k : Nat) (h : k < [(0x4869 : Word)].length), bankRead s .system ((254 : Word).toNat + k) = .ok [(0x4869 : Word)][k]) ∧
    (∀ u ∈ [(0x4869 : Word)], hiByte u ≠ 0 ∧ loByte u ≠ 0) ∧
    (bankRead s .system ((254 : Word).toNat + 1) = .ok 0 ∧ hiByte 0 = 0) ∧
    (bankRead s .system ((253 : Word).toNat + 0) = .ok 0x4800 ∧ loByte 0x4800 = 0) := by
  refine ⟨by decide, ?_, by simp only [List.mem_singleton, forall_eq]; decide, ⟨rfl, by decide⟩, rfl, by decide⟩
  intro k h
  obtain rfl : k = 0 := by simpa using h
  rfl

/-- Two Words up to the end of program memory. -/
theorem witness_UnterminatedStringFaults :
    let s := poke [(2, 4093)] [(4094, 0x4142), (4095, 0x4344)]
    getOperand s (.literal 1) = .ok 1 ∧
    (∀ (k : Nat) (h : k < [(0x4142 : Word), 0x4344].length),
      bankRead s .stack ((1 : Word).toNat + k) = .ok [(0x4142 : Word), 0x4344][k]) ∧
    (∀ u ∈ [(0x4142 : Word), 0x4344], hiByte u ≠ 0 ∧ loByte u ≠ 0) ∧
    inBounds s .stack ((1 : Word).toNat + [(0x4142 : Word), 0x4344].length) = false := by
  refine ⟨by decide, ?_, by simp only [List.mem_cons, List.not_mem_nil, or_false, forall_eq_or_imp, forall_eq]; decide,
    by decide⟩
  intro k h
  obtain rfl | rfl : k = 0 ∨ k = 1 := by simp only [List.length_cons, List.length_nil] at h; omega
  all_goals rfl

/-- A form that stores, and a form that is stopped. -/
theorem witness_WritersFrame :
    (∃ t, exec (.divide (.literal 2) (.ref .system 255)) State.reset = .next t ∧ t.runState = .running) ∧
    (∃ t, exec (.move (.literal 2) (.literal 3)) State.reset = .next t ∧ t.runState = .halted) ∧
    (Loc.reg 254 ≠ bankTarget State.reset .system (255 : Word).toNat) :=
  ⟨⟨_, rfl, rfl⟩, ⟨_, rfl, rfl⟩, by decide⟩

/-- An output, the exit, and the bounds violations of the left operand and of a string. -/
theorem witness_SyscallFrame :
    (∃ t, exec (.syscall (.literal 1) (.literal 0x48)) State.reset = .next t ∧ t.out ≠ State.reset.out) ∧
    (∃ t, exec (.syscall (.literal 0) (.literal 0)) State.reset = .next t ∧ t.haltCause = .exit) ∧
    (∃ t, exec (.syscall (.ref .system 256) (.literal 0)) State.reset = .next t ∧ t.faulted) ∧
    (∃ t, exec (.syscall (.literal 1) (.ref .system 256)) State.reset = .next t ∧ t.faulted) :=
  ⟨⟨_, rfl, by decide⟩, ⟨_, rfl, rfl⟩, ⟨_, rfl, _, rfl⟩, ⟨_, rfl, _, rfl⟩⟩

theorem witness_SyscallReadsOnlyWhatItNeeds :
    inBounds State.reset .system (256 : Word).toNat = false ∧ getOperand State.reset (.literal 2) ≠ .ok 1 := by decide

theorem witness_FaultEntryChangesNothingElse :
    (poke [(1, 1365)] []).runState = .running ∧
    fetchDecode (poke [(1, 1365)] []) 1365 = .error (.boundsViolation .program 4096) := by decide

/-- Opcodes 7 and 255. -/
theorem witness_UnknownOpcodeHalts :
    ((poke [] [(0, 0x0733)]).runState = .running ∧ fetch (poke [] [(0, 0x0733)]) 0 = .ok ⟨0x0733, 0, 0⟩) ∧
    (0x0733 / 16 % 16 ≤ 3 ∧ 0x0733 % 16 ≤ 3 ∧ 7 ≤ 0x0733 / 256) ∧
    (fetch (poke [] [(0, 0xFF00)]) 0 = .ok ⟨0xFF00, 0, 0⟩ ∧ 7 ≤ 0xFF00 / 256) := by decide

/-- Left header 4, and right header 15. -/
theorem witness_UnknownModeHalts :
    ((poke [] [(0, 0x0740)]).runState = .running ∧ fetch (poke [] [(0, 0x0740)]) 0 = .ok ⟨0x0740, 0, 0⟩ ∧
      3 < 0x0740 / 16 % 16) ∧
    (fetch (poke [] [(0, 0x003F)]) 0 = .ok ⟨0x003F, 0, 0⟩ ∧ 0x003F / 16 % 16 ≤ 3 ∧ 3 < 0x003F % 16) := by decide

theorem witness_InvalidWriteTargetRule :
    getOperand State.reset (.literal 1) = .ok 1 ∧ (1 : Word) ≠ 0 ∧ State.reset.haltCause = .none ∧
    (∃ t, exec (.move (.literal 1) (.literal 2)) State.reset = .next t ∧ t.haltCause = .fault (.invalidWriteTarget 0)) ∧
    (∃ t, exec (.divide (.literal 1) (.literal 2)) State.reset = .next t ∧ t.haltCause = .fault (.invalidWriteTarget 0)) :=
  ⟨rfl, by decide, rfl, ⟨_, rfl, rfl⟩, ⟨_, rfl, rfl⟩⟩

theorem witness_DivisionByZeroRule :
    let s := poke [(255, 9)] []
    getOperand s (.ref .system 255) = .ok 9 ∧ getOperand s (.literal 0) = .ok 0 ∧ s.haltCause = .none ∧
    ∃ t, exec (.divide (.literal 0) (.ref .system 255)) s = .next t ∧ t.haltCause = .fault (.divisionByZero 0) :=
  ⟨rfl, rfl, rfl, _, rfl, rfl⟩

theorem witness_MoveFaultOrder :
    inBounds State.reset .system (300 : Word).toNat = false ∧ getOperand State.reset (.literal 1) = .ok 1 ∧
    inBounds State.reset .data (4096 : Word).toNat = false := by decide

theorem witness_ArithmeticFaultOrder :
    inBounds State.reset .system (300 : Word).toNat = false ∧ getOperand State.reset (.ref .system 0) = .ok 0 ∧
    inBounds State.reset .system (256 : Word).toNat = false ∧ getOperand State.reset (.literal 1) = .ok 1 := by decide

/-- A division by zero, and a string without an end. -/
theorem witness_FaultsArePrecise :
    (∃ t, step (ready ⟨0x0603, 0, 0⟩ [] []) = .next t ∧ t.faulted) ∧
    (∃ t, step (ready ⟨0x0101, 0x0001, 0x1000⟩ [] []) = .next t ∧ t.faulted) ∧
    (ready ⟨0x0603, 0, 0⟩ [] []).haltCause = .none ∧ (ready ⟨0x0101, 0x0001, 0x1000⟩ [] []).haltCause = .none :=
  ⟨⟨_, rfl, _, rfl⟩, ⟨_, rfl, _, rfl⟩, rfl, rfl⟩

/-- Program counters 1364, 1365, 1366 and 65535. -/
theorem witness_FetchReadsThreeWords :
    (1364 : Word).toNat ≤ 1364 ∧ (1365 : Word).toNat = 1365 ∧ 1365 < (1366 : Word).toNat ∧ 1365 < (0xFFFF : Word).toNat ∧
    (poke [(1, 1366)] []).runState = .running ∧ (poke [(1, 1366)] []).pc = 1366 := by decide

/-- A handler that continues, one that terminates, a fault of decoding, and a Halted machine. -/
theorem witness_StepRunsDecodedInstruction :
    (∃ s i t, s.runState = .running ∧ fetchDecode s s.pc = .ok i ∧ exec i s = .next t ∧ t.runState = .running) ∧
    (∃ s i t, s.runState = .running ∧ fetchDecode s s.pc = .ok i ∧ exec i s = .next t ∧ t.runState = .halted) ∧
    (∃ s c, s.runState = .running ∧ fetchDecode s s.pc = .error c) ∧
    (State.reset.halt .exit).runState = .halted :=
  ⟨⟨ready ⟨0x0203, 5, 0⟩ [] [], .move (.literal 5) (.ref .system 0), _, rfl, rfl, rfl, rfl⟩,
    ⟨ready ⟨0x0100, 0, 0⟩ [] [], .syscall (.literal 0) (.literal 0), _, rfl, rfl, rfl, rfl⟩,
    ⟨ready ⟨0x0700, 0, 0⟩ [] [], .unknownOpcode 7, rfl, rfl⟩, rfl⟩

theorem witness_StepDefinedExactlyWhenRunning :
    State.reset.runState = .running ∧ (State.reset.halt .exit).runState = .halted := by decide

/-- A step that ends Halted, one that ends Running with a destination other than `R[1]`, and a `pass` and a `syscall` that name
`R[1]`. -/
theorem witness_ProgramCounterRule :
    (∃ t, step (ready ⟨0x0700, 0, 0⟩ [(1, 7)] []) = .next t ∧ t.runState = .halted) ∧
    (∃ t, step (ready ⟨0x0203, 5, 2⟩ [(1, 1364)] []) = .next t ∧ t.runState = .running) ∧
    (Operand.ref .system 2 ≠ .ref .system 1) ∧
    (∃ t, step (ready ⟨0x0003, 0, 1⟩ [] []) = .next t ∧ t.runState = .running) ∧
    (∃ t, step (ready ⟨0x0103, 2, 1⟩ [] []) = .next t ∧ t.runState = .running) :=
  ⟨⟨_, rfl, rfl⟩, ⟨_, rfl, rfl⟩, by decide, ⟨_, rfl, rfl⟩, ⟨_, rfl, rfl⟩⟩

/-- One instruction of each of the five, with the destination `R[1]`. -/
theorem witness_WritingPcTransfersControl :
    (∀ w : Fin 5, (ready ⟨[0x0203, 0x0303, 0x0403, 0x0503, 0x0603].get w, 0xFFFF, 1⟩ [(1, 7)] []).runState = .running) ∧
    getOperand State.reset (.literal 0xFFFF) = .ok 0xFFFF ∧ (0xFFFF : Word) ≠ 0 ∧
    fetchDecode (ready ⟨0x0203, 0xFFFF, 1⟩ [(1, 7)] []) 7 = .ok (.move (.literal 0xFFFF) (.ref .system 1)) ∧
    fetchDecode (ready ⟨0x0303, 0xFFFF, 1⟩ [(1, 7)] []) 7 = .ok (.add (.literal 0xFFFF) (.ref .system 1)) ∧
    fetchDecode (ready ⟨0x0403, 0xFFFF, 1⟩ [(1, 7)] []) 7 = .ok (.subtract (.literal 0xFFFF) (.ref .system 1)) ∧
    fetchDecode (ready ⟨0x0503, 0xFFFF, 1⟩ [(1, 7)] []) 7 = .ok (.multiply (.literal 0xFFFF) (.ref .system 1)) ∧
    fetchDecode (ready ⟨0x0603, 0xFFFF, 1⟩ [(1, 7)] []) 7 = .ok (.divide (.literal 0xFFFF) (.ref .system 1)) := by decide

/-- The last word of the last slot, stored through the Data bank. -/
theorem witness_StoresAreSeenByFetch :
    (1364 : Word).toNat ≤ 1364 ∧ 2 < 3 ∧ bankTarget (poke [(3, 4000)] []) .data 94 = .pm (3 * (1364 : Word).toNat + 2) ∧
    bankWrite (poke [(3, 4000)] []) .data 94 7 = .ok ((poke [(3, 4000)] []).setPm [(4094, 7)]) :=
  ⟨by decide, by decide, by decide, rfl⟩

theorem inv_of_none (s : State) (hm : s.pm.wf) (hr : s.runState = .running) (hc : s.haltCause = .none) : s.Inv where
  memory := hm
  cause := by simp [hr, hc]
  recordPc := by simp [hc]
  recordJustified := by simp [hc]

/-- A step that stores and one that faults, from states with the invariant. -/
theorem witness_StepKeepsInvariant :
    (State.Inv (ready ⟨0x0201, 5, 4095⟩ [] []) ∧ ∃ t, step (ready ⟨0x0201, 5, 4095⟩ [] []) = .next t ∧ t.pm.read 4095 = 5) ∧
    (State.Inv (ready ⟨0x0700, 0, 0⟩ [] []) ∧ ∃ t, step (ready ⟨0x0700, 0, 0⟩ [] []) = .next t ∧ t.faulted) :=
  ⟨⟨inv_of_none _ (by decide) rfl rfl, _, rfl, rfl⟩, ⟨inv_of_none _ (by decide) rfl rfl, _, rfl, _, rfl⟩⟩

theorem witness_ResetIsAllZeroAndRunning : (State.load [0x0100, 7, 0] 3 0xFFFF).isSome = true := by decide

theorem witness_StepChangesOnlyTheDestination :
    let s := ready ⟨0x0203, 5, 255⟩ [] []
    (∃ t, step s = .next t) ∧ fetchDecode s s.pc = .ok (.move (.literal 5) (.ref .system 255)) ∧
    Loc.reg 254 ≠ .reg 1 ∧ Loc.reg 254 ≠ bankTarget s .system (255 : Word).toNat :=
  ⟨⟨_, rfl⟩, rfl, by decide, by decide⟩

theorem witness_OutputIsNeverRead :
    (∃ t, step (ready ⟨0x0100, 1, 0x48⟩ [] []) = .next t ∧ t.out = [0x48]) ∧
    step (State.reset.halt .exit) = .fault .halted := ⟨⟨_, rfl, rfl⟩, rfl⟩

/-- From reset, and with the program counter at 1365, where no `pass` is left to run. -/
theorem witness_ZeroedMemoryIsAPassSled :
    (State.reset.runState = .running ∧ State.reset.haltCause = .none ∧ (∀ a, a < 4096 → State.reset.pm.read a = 0) ∧
      State.reset.pc.toNat ≤ 1365) ∧
    ((poke [(1, 1365)] []).runState = .running ∧ (∀ a, a < 4096 → (poke [(1, 1365)] []).pm.read a = 0) ∧
      (poke [(1, 1365)] []).pc.toNat ≤ 1365) :=
  ⟨⟨rfl, rfl, fun _ _ => rfl, by decide⟩, ⟨rfl, fun _ _ => rfl, by decide⟩⟩

/-- The selector 1 of the last clause, as a literal and read from a register. -/
theorem witness_StringLengthIsBounded :
    getOperand State.reset (.literal 1) = .ok 1 ∧ getOperand (poke [(255, 1)] []) (.ref .system 255) = .ok 1 := by decide

/-- Programs of 4096 and of 4097 Words. -/
theorem witness_LoadPlacesTheProgram :
    (List.replicate 4096 (1 : Word)).length ≤ 4096 ∧ 4096 < (List.replicate 4097 (1 : Word)).length := by
  simp only [List.length_replicate]; decide

/-- V-IMG-2: word 0 has two bytes, word 1 one; and images of 1, 2 and 8195 bytes. -/
theorem witness_ImageRoundTrip :
    parseImage [0x00, 0x00, 0xAB, 0xCD, 0xEF] = some ⟨0, [0xABCD, 0xEF00], 2⟩ ∧
    2 * 0 + 2 ≤ [(0xAB : Byte), 0xCD, 0xEF].length ∧ 2 * 1 + 1 = [(0xAB : Byte), 0xCD, 0xEF].length ∧
    parseImage [0x12, 0x34] = some ⟨0x1234, [], 0⟩ ∧ [(0 : Byte)].length < 2 ∧
    8194 < (List.replicate 8195 (0 : Byte)).length := by
  simp only [List.length_replicate]; decide

/-- The exit of `syscall #0, #0` at the first step, and no answer without fuel. -/
theorem witness_RunReportsTheHaltedState :
    (run 1 (ready ⟨0x0100, 0, 0⟩ [] [])).isSome = true ∧ run 0 (ready ⟨0x0100, 0, 0⟩ [] []) = none := by decide

/-- The whole life of an instance: reset, load, run, result. -/
theorem witness_HostMovesFollowTheLife :
    (∃ a b, Life.fresh.load [0x0100, 0, 0] 3 3 = some a ∧ a.run 1 = some b ∧ b.result.map (fun f => f.haltCause) = some .exit) :=
  ⟨_, _, rfl, rfl, rfl⟩

/-- R201: a second load is refused, and so are a run before the load and a second run. -/
theorem test_moves_the_host_does_not_have :
    (Life.loaded State.reset).load [] 0 0 = none ∧ (Life.ended State.reset).load [] 0 0 = none ∧
    Life.fresh.run 1 = none ∧ (Life.ended (State.reset.halt .exit)).run 1 = none := by decide

end Sys2Proof.Tests
end

section
/-! PROOFS. The reset state and the load (`10_state.md` R25, `70_reset_and_hazards.md` R203). -/

namespace Sys2Proof.Machine

/-! ### The cells at reset -/

@[simp] theorem State.reset_pm_read (a : Nat) : State.reset.pm.read a = 0 := rfl

/-- At reset a location inside its array holds 0, in either array (R25). -/
theorem State.reset_readLoc {l : Loc} (h : l.inArray = true) : State.reset.readLoc l = some 0 := by
  cases l with
  | reg i => simp [State.readLoc_reg (of_decide_eq_true h)]
  | pm a => simp [State.readLoc_pm (of_decide_eq_true h)]

/-! ### What a load can do -/

/-- A load succeeds exactly when the program fits, and leaves the program in memory and the two bases in their registers. -/
theorem State.load_eq_some {ws : List Word} {ds ss : Word} {s : State} :
    State.load ws ds ss = some s ↔ ws.length ≤ Config.pmWords ∧
      ((State.reset.setPm (State.reset.pm.writeFrom 0 ws)).setReg Config.dsb ds).setReg Config.ssb ss = s := by
  simp [State.load]

section Loaded
variable {ws : List Word} {ds ss : Word} {s : State}

/-- A loaded machine holds the program from address 0 on, and 0 beyond it. -/
theorem State.load_pm_read (h : State.load ws ds ss = some s) (a : Nat) : s.pm.read a = ws.getD a 0 := by
  obtain ⟨-, rfl⟩ := State.load_eq_some.1 h
  by_cases ha : a < ws.length <;> simp [Memory.read_writeFrom, ha]

/-- The registers of a loaded machine: the two bases, and 0 elsewhere. -/
theorem State.load_getReg (h : State.load ws ds ss = some s) (i : Fin Config.srWords) :
    s.getReg i = if i = Config.ssb then ss else if i = Config.dsb then ds else 0 := by
  obtain ⟨-, rfl⟩ := State.load_eq_some.1 h
  simp only [State.getReg_setReg, State.setPm_getReg, State.reset_getReg, eq_comm]

/-- Every word of the program is read back at its own address. -/
theorem State.load_readLoc_program (h : State.load ws ds ss = some s) {k : Nat} (hk : k < ws.length) :
    s.readLoc (.pm k) = some ws[k] := by
  have hfits := (State.load_eq_some.1 h).1
  rw [State.readLoc_pm (by omega), State.load_pm_read h]
  simp [hk]

/-- The load leaves the program counter at its reset value. -/
theorem State.load_pc (h : State.load ws ds ss = some s) : s.pc = 0 := State.load_getReg h Config.pcReg

end Loaded

/-- Settles O45: both arrays are 0 at reset, and a load changes only the program's words and the two bases (R25, R203). -/
theorem resetIsAllZeroAndRunning : Obligations.ResetIsAllZeroAndRunning := by
  refine ⟨fun a ha => State.reset_readLoc (decide_eq_true ha), fun i hi => State.reset_readLoc (decide_eq_true hi),
    State.reset_getReg 0, State.reset_pc, State.reset_getReg 2, State.reset_getReg 3, rfl, rfl, rfl, ?_⟩
  intro ws ds ss s hload
  exact ⟨fun k hk => State.load_readLoc_program hload hk, State.load_getReg hload Config.ssb,
    State.load_getReg hload Config.dsb, State.load_pc hload⟩

end Sys2Proof.Machine
end

section
/-! PROOFS. The three banks: their bounds, their reads and their writes (`20_memory.md` R35 to R37). -/

namespace Sys2Proof.Machine

/-! ### Bounds -/

section Banks
variable {s t : State} {off : Nat} {v : Word}

theorem inBounds_system : inBounds s .system off = true ↔ off < Config.srWords := decide_eq_true_iff

theorem inBounds_stack : inBounds s .stack off = true ↔ (s.getReg Config.ssb).toNat + off < Config.pmWords :=
  decide_eq_true_iff

theorem inBounds_data : inBounds s .data off = true ↔ (s.getReg Config.dsb).toNat + off < Config.pmWords :=
  decide_eq_true_iff

/-- A base outside program memory leaves nothing of the Stack bank in bounds: the sum is not truncated (R35, D6). -/
theorem inBounds_stack_of_base_out (h : Config.pmWords ≤ (s.getReg Config.ssb).toNat) : inBounds s .stack off = false :=
  Bool.eq_false_iff.2 fun hin => by have := inBounds_stack.1 hin; omega

/-- The same of the Data bank. -/
theorem inBounds_data_of_base_out (h : Config.pmWords ≤ (s.getReg Config.dsb).toNat) : inBounds s .data off = false :=
  Bool.eq_false_iff.2 fun hin => by have := inBounds_data.1 hin; omega

/-! ### Reads -/

theorem bankRead_system (h : off < Config.srWords) : bankRead s .system off = .ok (s.getReg ⟨off, h⟩) :=
  bankRead_eq_ok.2 (State.readLoc_reg h)

theorem bankRead_stack (h : (s.getReg Config.ssb).toNat + off < Config.pmWords) :
    bankRead s .stack off = .ok (s.pm.read ((s.getReg Config.ssb).toNat + off)) :=
  bankRead_eq_ok.2 (State.readLoc_pm h)

theorem bankRead_data (h : (s.getReg Config.dsb).toNat + off < Config.pmWords) :
    bankRead s .data off = .ok (s.pm.read ((s.getReg Config.dsb).toNat + off)) :=
  bankRead_eq_ok.2 (State.readLoc_pm h)

/-! ### Writes -/

/-- A bank write that succeeds writes its target and nothing else (R37). -/
theorem bankWrite_wroteOnly {b : Bank} (h : bankWrite s b off v = .ok t) : s.WroteOnly t (bankTarget s b off) v := by
  have hw := bankWrite_eq_ok.1 h
  obtain ⟨hrun, hcause, hout⟩ := State.writeLoc_frame hw
  exact {
    target := by simp [State.readLoc_writeLoc hw]
    others := fun j hj => by simp [State.readLoc_writeLoc hw, hj]
    runState := hrun
    haltCause := hcause
    out := hout }

/-- A System write in bounds is the write of its register. -/
theorem bankWrite_system (h : off < Config.srWords) (v : Word) :
    bankWrite s .system off v = .ok (s.setReg ⟨off, h⟩ v) :=
  bankWrite_eq_ok.2 (by simp only [bankTarget, State.writeLoc, h, dite_true])

theorem bankWrite_system_eq_ok (h : off < Config.srWords) :
    bankWrite s .system off v = .ok t ↔ s.setReg ⟨off, h⟩ v = t := by
  simp [bankWrite_system h]

/-! ### What a fetch and an access see of a register written before them -/

/-- A fetch depends on program memory alone, given its index. -/
theorem fetch_setReg (i : Fin Config.srWords) (v p : Word) : fetch (s.setReg i v) p = fetch s p := rfl

/-- A Stack access after a write of the stack base goes to the new base. -/
theorem bankRead_stack_setReg_ssb (h : v.toNat + off < Config.pmWords) :
    bankRead (s.setReg Config.ssb v) .stack off = .ok (s.pm.read (v.toNat + off)) := by
  have hbase : (s.setReg Config.ssb v).getReg Config.ssb = v := State.getReg_setReg_same s _ v
  simpa only [hbase, State.setReg_pm] using bankRead_stack (s := s.setReg Config.ssb v) (hbase.symm ▸ h)

/-- A Data access after a write of the data base goes to the new base. -/
theorem bankRead_data_setReg_dsb (h : v.toNat + off < Config.pmWords) :
    bankRead (s.setReg Config.dsb v) .data off = .ok (s.pm.read (v.toNat + off)) := by
  have hbase : (s.setReg Config.dsb v).getReg Config.dsb = v := State.getReg_setReg_same s _ v
  simpa only [hbase, State.setReg_pm] using bankRead_data (s := s.setReg Config.dsb v) (hbase.symm ▸ h)

end Banks

/-! ### The obligations -/

/-- Settles O5: each bank's bounds are its target's array, and an access succeeds exactly inside them (R35). -/
theorem boundsOfTheThreeBanks : Obligations.BoundsOfTheThreeBanks := fun _ _ =>
  ⟨inBounds_system, inBounds_stack, inBounds_data,
    fun _ hout => ⟨bankRead_out hout, bankWrite_out hout⟩,
    fun _ hin => ⟨bankRead_in hin, bankWrite_in hin⟩,
    inBounds_stack_of_base_out, inBounds_data_of_base_out⟩

/-- Settles O6: the Word a bank read answers, per bank (R36). -/
theorem bankReadGivesTheTarget : Obligations.BankReadGivesTheTarget := fun _ _ =>
  ⟨fun _ => bankRead_out, bankRead_system,
    fun hin => bankRead_stack (inBounds_stack.1 hin), fun hin => bankRead_data (inBounds_data.1 hin)⟩

/-- Settles O7: a bank write is the write of its target alone, and a write of `x[1]`, `x[2]` or `x[3]` is the state that the
next fetch or access reads (R37). -/
theorem bankWriteChangesOneCell : Obligations.BankWriteChangesOneCell := by
  intro s bank off v
  refine ⟨fun hout => bankWrite_out hout v, fun hin => ?target, fun t ht => ?newPc, fun t ht o ho => ?newStackBase,
    fun t ht o ho => ?newDataBase⟩
  case target =>
    obtain ⟨t, ht⟩ := bankWrite_in hin v
    have hone := bankWrite_wroteOnly ht
    exact ⟨t, ht, by cases bank <;> exact hone⟩
  case newPc =>
    obtain rfl := (bankWrite_system_eq_ok (by decide)).1 ht
    have hpc := State.setReg_pcReg_pc s v
    exact ⟨hpc, by rw [fetch_setReg]; exact congrArg (fetch s) hpc⟩
  case newStackBase =>
    obtain rfl := (bankWrite_system_eq_ok (by decide)).1 ht
    exact bankRead_stack_setReg_ssb ho
  case newDataBase =>
    obtain rfl := (bankWrite_system_eq_ok (by decide)).1 ht
    exact bankRead_data_setReg_dsb ho

end Sys2Proof.Machine
end

section
/-! PROOFS. Resolution of operands, `Get` and `Set` (`40_operand_resolution.md` R80, R82 to R84). -/

namespace Sys2Proof

/-! ### Resolution -/

section Resolve
variable {m : Header} {v : Word} {side : Side}

/-- Resolution succeeds with the one operand that has this header and this raw value. -/
theorem resolve_eq_ok {o : Operand} : resolve m v side = .ok o ↔ o.mode = m ∧ o.raw = v := by
  constructor
  · exact resolve_ok
  · rintro ⟨rfl, rfl⟩
    exact resolve_mode_raw o side

/-- Resolution fails exactly on a header above 3, and names it with its side. -/
theorem resolve_eq_error {e : DecodeError} :
    resolve m v side = .error e ↔ 3 < m.toNat ∧ e = .unknownMode side m := by
  refine ⟨resolve_error, ?_⟩
  rintro ⟨hm, rfl⟩
  cases hr : resolve m v side with
  | ok o =>
    have hmode : o.mode.toNat ≤ 3 := of_decide_eq_true (headerOk_mode o)
    rw [(resolve_ok hr).1] at hmode
    omega
  | error e => rw [(resolve_error hr).2]

end Resolve

end Sys2Proof

namespace Sys2Proof.Machine

/-! ### `Get` and `Set` on a reference -/

section Operands
variable {s : State}

/-- `Set` on a reference in bounds succeeds and writes the reference's target alone (R83). -/
theorem setOperand_ref_in {b : Bank} {off : Word} (h : inBounds s b off.toNat = true) (v : Word) :
    ∃ t, setOperand s (.ref b off) v = .ok t ∧ s.WroteOnly t (bankTarget s b off.toNat) v :=
  (bankWrite_in h v).imp fun _ ht => ⟨ht, bankWrite_wroteOnly ht⟩

/-- `Get` on a System reference in bounds is its register (R82). -/
theorem getOperand_system {off : Word} (h : off.toNat < Config.srWords) :
    getOperand s (.ref .system off) = .ok (s.getReg ⟨off.toNat, h⟩) :=
  bankRead_system h

/-- `Set` on a System reference in bounds is the write of its register. -/
theorem setOperand_system {off : Word} (h : off.toNat < Config.srWords) (v : Word) :
    setOperand s (.ref .system off) v = .ok (s.setReg ⟨off.toNat, h⟩ v) :=
  bankWrite_system h v

/-- `Get` on a reference out of bounds raises the violation with the reference's own offset (R82). -/
theorem getOperand_ref_out {b : Bank} {off : Word} (h : inBounds s b off.toNat = false) :
    getOperand s (.ref b off) = .error (.boundsViolation (.bank b) off.toNat) :=
  bankRead_out h

/-- `Get` on a Data reference whose sum with the base `x[3]` lies inside program memory. -/
theorem getOperand_data {base off : Word} (hbase : s.getReg Config.dsb = base)
    (h : base.toNat + off.toNat < Config.pmWords) :
    getOperand s (.ref .data off) = .ok (s.pm.read (base.toNat + off.toNat)) := by
  subst hbase
  exact bankRead_data h

/-- `Get` on a Data reference whose sum with the base `x[3]`, untruncated, lies outside program memory. -/
theorem getOperand_data_out {base off : Word} (hbase : s.getReg Config.dsb = base)
    (h : Config.pmWords ≤ base.toNat + off.toNat) :
    getOperand s (.ref .data off) = .error (.boundsViolation (.bank .data) off.toNat) := by
  subst hbase
  exact getOperand_ref_out (Bool.eq_false_iff.2 fun hin => Nat.not_lt.2 h (inBounds_data.1 hin))

/-! ### The targets after a write of a base pointer -/

/-- The Stack bank starts at the stack base just written (R83, R34). -/
theorem bankTarget_stack_setReg_ssb (v : Word) (off : Nat) :
    bankTarget (s.setReg Config.ssb v) .stack off = .pm (v.toNat + off) := by
  simp [bankTarget]

/-- The Data bank starts at the data base just written (R83, R34). -/
theorem bankTarget_data_setReg_dsb (v : Word) (off : Nat) :
    bankTarget (s.setReg Config.dsb v) .data off = .pm (v.toNat + off) := by
  simp [bankTarget]

end Operands

/-! ### The obligations -/

/-- Settles O4: a header and a raw value determine the operand, and only a header above 3 has none (R80). -/
theorem resolveFollowsTheTable : Obligations.ResolveFollowsTheTable := by
  refine ⟨fun m v side => ⟨?_, ?_, ?_, ?_, fun hm => resolve_eq_error.2 ⟨hm, rfl⟩, ?onlyAbove3⟩,
    resolve_eq_ok.2 ⟨rfl, rfl⟩, resolve_eq_error.2 ⟨by decide, rfl⟩⟩
  case onlyAbove3 =>
    exact ⟨fun ⟨_, he⟩ => (resolve_error he).1, fun hm => ⟨_, resolve_eq_error.2 ⟨hm, rfl⟩⟩⟩
  all_goals
    rintro rfl
    exact resolve_eq_ok.2 ⟨rfl, rfl⟩

/-- Settles O8: `Get` of a reference is the bank's read, so its cases are those of R35 and R36 (R82). -/
theorem getReadsLiteralOrBank : Obligations.GetReadsLiteralOrBank := by
  intro s
  refine ⟨getOperand_literal s, fun b off hin => ?inBank, fun b off hout => getOperand_ref_out hout,
    getOperand_system (by decide), getOperand_system (by decide), getOperand_ref_out rfl, fun hbase => ?dataAtSix⟩
  case inBank =>
    obtain ⟨w, hw⟩ := bankRead_in hin
    exact ⟨w, hw, hw⟩
  case dataAtSix =>
    refine ⟨getOperand_data hbase (by decide), getOperand_data_out hbase (by decide), fun hcell => ?_⟩
    exact hcell ▸ getOperand_data hbase (by decide)

/-- Settles O9: `Set` on a reference is the bank's write, which writes its target alone; a base pointer written moves its
bank (R83). -/
theorem setOnReferenceWritesTheCell : Obligations.SetOnReferenceWritesTheCell := by
  intro s v
  refine ⟨fun b off hout => bankWrite_out hout v, fun b off hin => setOperand_ref_in hin v,
    ⟨_, setOperand_system (by decide) v, State.setReg_pcReg_pc s v⟩,
    ⟨_, setOperand_system (by decide) v, bankTarget_stack_setReg_ssb v⟩,
    ⟨_, setOperand_system (by decide) v, bankTarget_data_setReg_dsb v⟩, fun hbase => ?stackAtFourteen⟩
  have htarget : bankTarget s .stack (0 : Word).toNat = .pm 14 := by simp [bankTarget, hbase]
  have hin : inBounds s .stack (0 : Word).toNat = true := by rw [inBounds, htarget]; rfl
  obtain ⟨t, ht, hone⟩ := setOperand_ref_in hin 0x0234
  exact ⟨t, ht, htarget ▸ hone.target⟩

/-- Settles O10: the fault is `Set`'s own, so an instruction meets it only where its handler calls `Set`: `pass` and `syscall`
never do, and `divide` by zero raises before it does (R84). -/
theorem literalIsNeverWritten : Obligations.LiteralIsNeverWritten := by
  refine ⟨setOperand_literal, fun s => rfl, fun s => ⟨_, execSyscall_read (getOperand_literal s 1), rfl, rfl⟩,
    fun s => ?zeroDivisor, by decide, fun s => ?moveToLiteral⟩
  case zeroDivisor =>
    exact execBinary_op_fails (getOperand_literal s 5) (getOperand_literal s 0) (divWords_eq 5 0)
  case moveToLiteral =>
    calc exec (.move (.literal 1) (.literal 2)) s
      _ = complete s (setOperand s (.literal 2) 1) := execMove_read (getOperand_literal s 1)
      _ = .next (s.raise .invalidWriteTarget) := by rw [setOperand_literal, complete_error]

end Sys2Proof.Machine
end

section
/-! PROOFS. The decoding of a legal header and of `pass`, and the step of `pass` (`42_pass_move.md` R120). -/

namespace Sys2Proof

/-! ### Decoding succeeds -/

/-- Every header up to 3 resolves, whatever the raw value (R80, R69). -/
theorem resolve_isOk {m : Header} (h : m.toNat ≤ 3) (v : Word) (side : Side) : ∃ o, resolve m v side = .ok o := by
  cases hr : resolve m v side with
  | ok o => exact ⟨o, rfl⟩
  | error e => exact absurd (resolve_error hr).1 (by omega)

/-- Two operands that resolve and an opcode that is known make an instruction (R65). -/
theorem decodeFields_ok {f : Fields} {l r : Operand} {i : Instr} (hl : resolve f.lmode f.lval .left = .ok l)
    (hr : resolve f.rmode f.rval .right = .ok r) (ho : lookupOpcode f.opcode l r = .ok i) : decodeFields f = .ok i := by
  simp only [decodeFields, hl, hr, bind, Except.bind, ho]

/-- Opcode 0 with two headers up to 3 is a `pass`, whatever the raw values (R120). -/
theorem decode_isPass {ws : InstrWords} (hop : ws.w0.toNat / 256 = 0) (hleft : ws.w0.toNat / 16 % 16 ≤ 3)
    (hright : ws.w0.toNat % 16 ≤ 3) : ∃ l r, decode ws = .ok (.pass l r) := by
  obtain ⟨l, hl⟩ := resolve_isOk ((fieldsOfWords_lmode_toNat ws).trans_le hleft) (fieldsOfWords ws).lval .left
  obtain ⟨r, hr⟩ := resolve_isOk ((fieldsOfWords_rmode_toNat ws).trans_le hright) (fieldsOfWords ws).rval .right
  have hzero : (fieldsOfWords ws).opcode = (Instr.pass l r).opcode :=
    BitVec.eq_of_toNat_eq ((fieldsOfWords_opcode_toNat ws).trans hop)
  exact ⟨l, r, decodeFields_ok hl hr (hzero ▸ lookupOpcode_opcode (.pass l r))⟩

end Sys2Proof

namespace Sys2Proof.Machine

/-! ### The parts of a step -/

/-- A fetch and a decode that succeed give the step its instruction (R102). -/
theorem fetchDecode_ok {s : State} {p : Word} {ws : InstrWords} {i : Instr} (hf : fetch s p = .ok ws)
    (hd : decode ws = .ok i) : fetchDecode s p = .ok i := by
  simp only [fetchDecode, hf, hd]

/-- The advance writes `x[1]` alone (R107). -/
theorem State.advance_wroteOnly (s : State) : s.WroteOnly s.advance (.reg 1) (s.pc + 1) :=
  bankWrite_wroteOnly (bankWrite_system (off := 1) (by decide) (s.pc + 1))

/-! ### The meaning and the step of `pass` -/

/-- The handler of `pass` continues in the state it is given. -/
theorem exec_pass (l r : Operand) (s : State) : exec (.pass l r) s = .next s := rfl

/-- A step of `pass` is the advance (R106, R120). -/
theorem step_pass {s : State} {l r : Operand} (hrun : s.runState = .running)
    (hf : fetchDecode s s.pc = .ok (.pass l r)) : step s = .next s.advance :=
  calc step s
    _ = .next (finishStep s) := step_runs hrun hf (exec_pass l r s)
    _ = .next s.advance := by rw [finishStep_running hrun]

/-! ### The obligation -/

/-- Settles O13: the handler of `pass` answers its own state, so its step is the advance, and any operands of legal headers
decode for it (R120). -/
theorem passDoesNothing : Obligations.PassDoesNothing := by
  refine ⟨exec_pass, fun _ _ _ => step_pass, fun w0 w1 w2 => decode_isPass (ws := ⟨w0, w1, w2⟩), by decide, by decide,
    by decide, fun s hrun hpc hfetch => ?atFour⟩
  case atFour =>
    have hpass : fetchDecode s s.pc = .ok (.pass (.literal 0) (.literal 0)) :=
      fetchDecode_ok (hpc ▸ hfetch) (by decide)
    have hpc' : s.advance.pc = 5 := by rw [State.advance_pc, hpc]; rfl
    have hone := State.advance_wroteOnly s
    exact ⟨s.advance, step_pass hrun hpass, hpc', hone.runState.trans hrun, hone.haltCause, hone.out, hone.others⟩

end Sys2Proof.Machine
end

section
/-! PROOFS. `syscall` with selector 1 and a Literal, and with a selector that selects nothing (`44_syscall.md` R152, R154). -/

namespace Sys2Proof

/-- The low byte of a Word as a residue (R4). -/
theorem loByte_eq_ofNat (v : Word) : loByte v = BitVec.ofNat 8 (v.toNat % 256) :=
  BitVec.eq_of_toNat_eq (by simp)

end Sys2Proof

namespace Sys2Proof.Machine

/-! ### A step whose handler continues -/

/-- A handler that answers a Running state is followed by the advance (R106). -/
theorem step_continues {s t : State} {i : Instr} (hrun : s.runState = .running) (hf : fetchDecode s s.pc = .ok i)
    (he : exec i s = .next t) (ht : t.runState = .running) : step s = .next t.advance := by
  rw [step_runs hrun hf he, finishStep_running ht]

/-! ### The meaning of `syscall`, per selector -/

section Syscall
variable {l r : Operand} {s : State}

/-- The three cases of the selector (R150). -/
theorem exec_syscall {sel : Word} (hl : getOperand s l = .ok sel) :
    exec (.syscall l r) s = .next (if sel = 0 then s.halt .exit else if sel = 1 then output s r else s) :=
  execSyscall_read hl

/-- Selector 1 is the output of the right operand. -/
theorem exec_syscall_one (hl : getOperand s l = .ok 1) : exec (.syscall l r) s = .next (output s r) := by
  rw [exec_syscall hl, if_neg (by decide), if_pos rfl]

/-- Selector 1 with a Literal emits the Literal's low byte (R152). -/
theorem exec_syscall_one_literal {v : Word} {b : Byte} (hl : getOperand s l = .ok 1) (hb : loByte v = b) :
    exec (.syscall l (.literal v)) s = .next (s.emit [b]) := by
  subst hb
  exact exec_syscall_one hl

/-- A selector of 2 or more answers the state it is given (R154). -/
theorem exec_syscall_ge_two {sel : Word} (hl : getOperand s l = .ok sel) (h : 2 ≤ sel.toNat) :
    exec (.syscall l r) s = .next s := by
  have hzero : sel ≠ 0 := by
    rintro rfl
    exact absurd h (by decide)
  have hone : sel ≠ 1 := by
    rintro rfl
    exact absurd h (by decide)
  rw [exec_syscall hl, if_neg hzero, if_neg hone]

end Syscall

/-! ### The obligations -/

/-- Settles O20: the handler's only effect is the emission of one byte, which does not halt the machine, so the
step is that emission and the advance (R152). -/
theorem literalOutputIsItsLowByte : Obligations.LiteralOutputIsItsLowByte := by
  refine ⟨fun l v s hl => ?handler, fun l v s hl hrun hf => ?wholeStep, fun s => exec_syscall_one_literal rfl (by decide),
    fun s => exec_syscall_one_literal rfl (by decide), by decide, fun s => exec_syscall_one_literal rfl (by decide)⟩
  case handler =>
    exact ⟨_, exec_syscall_one_literal hl (loByte_eq_ofNat v), rfl, rfl, rfl, rfl, rfl⟩
  case wholeStep =>
    exact ⟨_, step_continues hrun hf (exec_syscall_one_literal hl (loByte_eq_ofNat v)) hrun, rfl, hrun,
      State.advance_pc _⟩

/-- Settles O21: the handler answers its own state without a look at the right operand, so its step is the advance (R154). -/
theorem otherSelectorsDoNothing : Obligations.OtherSelectorsDoNothing := by
  refine ⟨fun l r s sel hl hsel => ?anySelector, by decide, fun s => exec_syscall_ge_two rfl (by decide)⟩
  have hexec : exec (.syscall l r) s = .next s := exec_syscall_ge_two hl hsel
  exact ⟨hexec, fun hrun hf => step_continues hrun hf hexec hrun⟩

end Sys2Proof.Machine
end

section
/-! PROOFS. The unknown opcode at the step (`60_exceptions.md` R171). -/

namespace Sys2Proof

/-! ### Decoding fails on the opcode -/

/-- The instructions have the opcodes 0 to 6 (R66). -/
theorem Instr.opcode_toNat_le (i : Instr) : i.opcode.toNat ≤ 6 := by
  cases i <;> simp [Instr.opcode]

/-- The lookup of an opcode above 6 fails and names the opcode (R67). -/
theorem lookupOpcode_unknown {op : Opcode} (h : 6 < op.toNat) (l r : Operand) :
    lookupOpcode op l r = .error (.unknownOpcode op) := by
  cases hi : lookupOpcode op l r with
  | ok i =>
    have hle := i.opcode_toNat_le
    rw [(lookupOpcode_ok hi).1] at hle
    omega
  | error e => rw [(lookupOpcode_error hi).2]

/-- With both headers good, decoding is the lookup of the opcode (R65). -/
theorem decodeFields_resolved {f : Fields} {l r : Operand} (hl : resolve f.lmode f.lval .left = .ok l)
    (hr : resolve f.rmode f.rval .right = .ok r) : decodeFields f = lookupOpcode f.opcode l r := by
  simp only [decodeFields, hl, hr, bind, Except.bind]

/-- The opcode as a residue: the high byte of the first Word (R61). -/
theorem fieldsOfWords_opcode_eq_ofNat (ws : InstrWords) :
    (fieldsOfWords ws).opcode = BitVec.ofNat 8 (ws.w0.toNat / 256) := by
  rw [← fieldsOfWords_opcode_toNat, BitVec.ofNat_toNat, BitVec.setWidth_eq]

/-- Two headers up to 3 and an opcode above 6 fail with the opcode, whatever the raw values (R65, R67). -/
theorem decode_unknownOpcode {ws : InstrWords} (hleft : ws.w0.toNat / 16 % 16 ≤ 3) (hright : ws.w0.toNat % 16 ≤ 3)
    (hop : 7 ≤ ws.w0.toNat / 256) : decode ws = .error (.unknownOpcode (BitVec.ofNat 8 (ws.w0.toNat / 256))) := by
  obtain ⟨l, hl⟩ := resolve_isOk ((fieldsOfWords_lmode_toNat ws).trans_le hleft) (fieldsOfWords ws).lval .left
  obtain ⟨r, hr⟩ := resolve_isOk ((fieldsOfWords_rmode_toNat ws).trans_le hright) (fieldsOfWords ws).rval .right
  calc decode ws
    _ = lookupOpcode (fieldsOfWords ws).opcode l r := decodeFields_resolved hl hr
    _ = .error (.unknownOpcode (fieldsOfWords ws).opcode) :=
      lookupOpcode_unknown (hop.trans_eq (fieldsOfWords_opcode_toNat ws).symm) l r
    _ = .error (.unknownOpcode (BitVec.ofNat 8 (ws.w0.toNat / 256))) := by rw [fieldsOfWords_opcode_eq_ofNat]

end Sys2Proof

namespace Sys2Proof.Machine

/-- A fetch that succeeds and a decode that fails give the step the decode error's condition (R102). -/
theorem fetchDecode_decode_fails {s : State} {p : Word} {ws : InstrWords} {e : DecodeError} (hf : fetch s p = .ok ws)
    (hd : decode ws = .error e) : fetchDecode s p = .error (decodeFatal e) := by
  simp only [fetchDecode, hf, hd]

/-! ### The obligation -/

/-- Settles O29: with good headers only the lookup of the opcode can fail, and the step takes its condition (R171, R180). -/
theorem unknownOpcodeHalts : Obligations.UnknownOpcodeHalts := by
  intro s w0 w1 w2 hrun hfetch hleft hright hop
  exact step_fetch_fails hrun (fetchDecode_decode_fails hfetch (decode_unknownOpcode (ws := ⟨w0, w1, w2⟩) hleft hright hop))

end Sys2Proof.Machine
end

section
/-! PROOFS. The two conditions a handler raises by itself: the invalid write target and the division by zero
(`60_exceptions.md` R174, R175). -/

namespace Sys2Proof.Machine

/-! ### The three arithmetic instructions without an arithmetic error -/

/-- `add`, `subtract` and `multiply` are the common arithmetic shape over a computation that always succeeds (R130 to R132). -/
theorem exec_total_binary {op : Operand → Operand → Instr} (hop : op ∈ [Instr.add, Instr.subtract, Instr.multiply]) :
    ∃ f : Word → Word → Word, ∀ l r s, exec (op l r) s = execBinary (fun a b => .ok (f a b)) l r s := by
  simp only [List.mem_cons, List.not_mem_nil, or_false] at hop
  obtain rfl | rfl | rfl := hop
  · exact ⟨addWords, fun _ _ _ => rfl⟩
  · exact ⟨subWords, fun _ _ _ => rfl⟩
  · exact ⟨mulWords, fun _ _ _ => rfl⟩

/-! ### Division by zero is its only error -/

theorem divWords_zero (a : Word) : divWords a 0 = .error .divisionByZero := divWords_eq a 0

theorem divWords_ne_zero (a : Word) {b : Word} (h : b ≠ 0) : divWords a b = .ok (a / b) := by
  rw [divWords_eq, if_neg h]

/-! ### What a writing instruction meets at its `Set` -/

section Writers
variable {l r : Operand} {s : State} {w a b v : Word}

/-- An arithmetic instruction with a Literal right operand, once its left operand is read and its computation done, raises the
invalid write target (R174). -/
theorem execBinary_literal_right {op : Word → Word → Except FatalCondition Word} (hl : getOperand s l = .ok b)
    (hop : op w b = .ok v) : execBinary op l (.literal w) s = .next (s.raise .invalidWriteTarget) := by
  rw [execBinary_read (getOperand_literal s w) hl hop, setOperand_literal, complete_error]

/-- The same of `move`. -/
theorem execMove_literal_right (hl : getOperand s l = .ok b) :
    execMove l (.literal w) s = .next (s.raise .invalidWriteTarget) := by
  rw [execMove_read hl, setOperand_literal, complete_error]

/-- A reference that was read can be written, without a change of the run state and the halt cause. -/
theorem setOperand_ref_of_read {bank : Bank} {off : Word} (hr : getOperand s (.ref bank off) = .ok a) (v : Word) :
    ∃ t, setOperand s (.ref bank off) v = .ok t ∧ t.runState = s.runState ∧ t.haltCause = s.haltCause := by
  cases hin : inBounds s bank off.toNat with
  | true =>
    obtain ⟨t, ht, hone⟩ := setOperand_ref_in hin v
    exact ⟨t, ht, hone.runState, hone.haltCause⟩
  | false => simp [bankRead_out hin] at hr

/-- An arithmetic instruction with readable operands, a reference on the right and a computation that succeeds completes. -/
theorem execBinary_completes {op : Word → Word → Except FatalCondition Word} {bank : Bank} {off : Word}
    (hr : getOperand s (.ref bank off) = .ok a) (hl : getOperand s l = .ok b) (hop : op a b = .ok v) :
    ∃ t, execBinary op l (.ref bank off) s = .next t ∧ t.runState = s.runState ∧ t.haltCause = s.haltCause := by
  obtain ⟨t, ht, hframe⟩ := setOperand_ref_of_read hr v
  exact ⟨t, by rw [execBinary_read hr hl hop, ht, complete_ok], hframe⟩

/-- `divide` whose left operand reads as 0, after its right operand was read (R175). -/
theorem execDivide_zero (hr : getOperand s r = .ok a) (hl : getOperand s l = .ok 0) :
    execDivide l r s = .next (s.raise .divisionByZero) :=
  execBinary_op_fails hr hl (divWords_zero a)

end Writers

/-! ### How a handler ends, with the cause of every fatal condition -/

/-- The handler of `i` calls its `Set` (R174): it is one of the five writers, its left operand was read, and a `divide` passed
its zero test. -/
structure ReachesSet (i : Instr) (s : State) : Prop where
  writer : ∀ l r, i ≠ .pass l r ∧ i ≠ .syscall l r
  leftRead : ∃ b, getOperand s i.left = .ok b ∧ ∀ l r, i = .divide l r → b ≠ 0

/-- The handler of `i` fails its zero test (R175): both operands of a `divide` were read, the left one as 0. -/
def DividesByZero (i : Instr) (s : State) : Prop :=
  ∃ l r a, i = .divide l r ∧ getOperand s r = .ok a ∧ getOperand s l = .ok 0

/-- The ways the handler of `i` ends: it finds a cause of R173 to R175, or it takes no fatal condition. Where `Effect` says what
changes, this says why it faulted. -/
inductive Ending (i : Instr) (s : State) : State → Prop where
  | continues (t : State) (h : t.haltCause = s.haltCause) : Ending i s t
  | exits : Ending i s (s.halt .exit)
  | outOfBank (bs : List Byte) (c : FatalCondition) (h : c.OutOfBank s) : Ending i s ((s.emit bs).raise c)
  | literalTarget (w : Word) (hr : i.right = .literal w) (h : ReachesSet i s) : Ending i s (s.raise .invalidWriteTarget)
  | zeroDivisor (h : DividesByZero i s) : Ending i s (s.raise .divisionByZero)

section Endings
variable {i : Instr} {l r : Operand} {s : State} {v : Word}

/-- A violation of an operand access ends the handler before any output. -/
theorem Ending.of_access {c : FatalCondition} (h : c.OutOfBank s) : Ending i s (s.raise c) := by
  have := Ending.outOfBank (i := i) [] c h
  rwa [State.emit_nil] at this

/-- The ending of a handler that reaches its `Set`. -/
theorem Ending.of_set (hr : i.right = r) (hreach : ReachesSet i s) :
    ∃ t, complete s (setOperand s r v) = .next t ∧ Ending i s t := by
  cases r with
  | literal w => exact ⟨_, rfl, .literalTarget w hr hreach⟩
  | ref bank off =>
    cases hin : inBounds s bank off.toNat with
    | true =>
      obtain ⟨t, ht, hone⟩ := setOperand_ref_in hin v
      exact ⟨t, by rw [ht, complete_ok], .continues t hone.haltCause⟩
    | false =>
      have hout := bankWrite_out hin v
      exact ⟨_, by rw [setOperand_ref, hout, complete_error],
        .of_access ⟨bank, off.toNat, rfl, hin, Nat.le_of_lt_succ (word_toNat_lt off)⟩⟩

/-- The ending of the common arithmetic shape: a computation that succeeds reaches the `Set`, and one that fails has met a zero
divisor. -/
theorem execBinary_ending {op : Word → Word → Except FatalCondition Word} (hright : i.right = r)
    (hreach : ∀ a b v, getOperand s l = .ok b → op a b = .ok v → ReachesSet i s)
    (hzero : ∀ a b c, getOperand s r = .ok a → getOperand s l = .ok b → op a b = .error c →
      c = .divisionByZero ∧ DividesByZero i s) :
    ∃ t, execBinary op l r s = .next t ∧ Ending i s t := by
  cases hr : getOperand s r with
  | error c => exact ⟨_, execBinary_right_fails hr, .of_access (getOperand_error hr)⟩
  | ok a =>
    cases hl : getOperand s l with
    | error c => exact ⟨_, execBinary_left_fails hr hl, .of_access (getOperand_error hl)⟩
    | ok b =>
      cases hv : op a b with
      | error c =>
        obtain ⟨rfl, hdiv⟩ := hzero a b c hr hl hv
        exact ⟨_, execBinary_op_fails hr hl hv, .zeroDivisor hdiv⟩
      | ok v =>
        rw [execBinary_read hr hl hv]
        exact Ending.of_set hright (hreach a b v hl hv)

/-- The ending of `add`, `subtract` and `multiply`, whose computation never fails. -/
theorem execBinary_total_ending {f : Word → Word → Word} (hright : i.right = r) (hleft : i.left = l)
    (hwriter : ∀ l r, i ≠ .pass l r ∧ i ≠ .syscall l r) (hdiv : ∀ l r, i ≠ .divide l r) :
    ∃ t, execBinary (fun a b => .ok (f a b)) l r s = .next t ∧ Ending i s t := by
  refine execBinary_ending hright (fun a b v hl _ => ⟨hwriter, b, hleft ▸ hl, fun l r hi => absurd hi (hdiv l r)⟩) ?_
  intro a b c _ _ hc
  cases hc

/-- The ending of `divide`: the zero test decides between the two. -/
theorem execDivide_ending : ∃ t, execDivide l r s = .next t ∧ Ending (.divide l r) s t := by
  refine execBinary_ending rfl (fun a b v hl hv => ⟨by simp, b, hl, fun _ _ _ => ?nonzero⟩) (fun a b c hr hl hc => ?zero)
  case nonzero =>
    rintro rfl
    rw [divWords_zero] at hv
    cases hv
  case zero =>
    by_cases hb : b = 0
    · subst hb
      rw [divWords_zero] at hc
      cases hc
      exact ⟨rfl, l, r, a, rfl, hr, hl⟩
    · rw [divWords_ne_zero a hb] at hc
      cases hc

/-- The ending of `move`. -/
theorem execMove_ending : ∃ t, execMove l r s = .next t ∧ Ending (.move l r) s t := by
  cases hl : getOperand s l with
  | error c => exact ⟨_, execMove_left_fails hl, .of_access (getOperand_error hl)⟩
  | ok v =>
    rw [execMove_read hl]
    exact Ending.of_set rfl ⟨by simp, v, hl, by simp⟩

/-- The ending of `syscall`: a violation is its only fatal condition. -/
theorem execSyscall_ending : ∃ t, execSyscall l r s = .next t ∧ Ending (.syscall l r) s t := by
  cases hl : getOperand s l with
  | error c => exact ⟨_, execSyscall_left_fails hl, .of_access (getOperand_error hl)⟩
  | ok sel =>
    refine ⟨_, execSyscall_read hl, ?_⟩
    split
    · exact .exits
    · split
      · obtain ⟨bs, h | ⟨c, hc, h⟩⟩ := output_cases s r <;> rw [h]
        · exact .continues _ rfl
        · exact .outOfBank bs c hc
      · exact .continues s rfl

end Endings

/-- Every instruction answers a next state, by one of the endings above. -/
theorem exec_ending (i : Instr) (s : State) : ∃ t, exec i s = .next t ∧ Ending i s t := by
  cases i with
  | pass l r => exact ⟨s, exec_pass l r s, .continues s rfl⟩
  | syscall l r => exact execSyscall_ending
  | move l r => exact execMove_ending
  | add l r => exact execBinary_total_ending rfl rfl (by simp) (by simp)
  | subtract l r => exact execBinary_total_ending rfl rfl (by simp) (by simp)
  | multiply l r => exact execBinary_total_ending rfl rfl (by simp) (by simp)
  | divide l r => exact execDivide_ending

/-! ### Which ending a record comes from -/

section Records
variable {i : Instr} {s t : State} {p : Word}

/-- The ending of a handler whose answer is known. -/
theorem ending_of_exec (h : exec i s = .next t) : Ending i s t := by
  obtain ⟨u, hu, hend⟩ := exec_ending i s
  cases h.symm.trans hu
  exact hend

/-- A record of the invalid write target comes from a `Set` on a Literal. -/
theorem Ending.invalidWriteTarget (h : Ending i s t) (hnone : s.haltCause = .none)
    (hrec : t.haltCause = .fault (.invalidWriteTarget p)) :
    (∃ w, i.right = .literal w) ∧ ReachesSet i s ∧ p = s.pc ∧ t = s.raise .invalidWriteTarget := by
  cases h with
  | continues t hkeep => simp [hkeep, hnone] at hrec
  | exits => simp at hrec
  | outOfBank bs c hc =>
    obtain ⟨b, off, rfl, -⟩ := hc
    simp at hrec
  | literalTarget w hr hreach => exact ⟨⟨w, hr⟩, hreach, by simpa using hrec, rfl⟩
  | zeroDivisor hdiv => simp at hrec

/-- A record of the division by zero comes from a failed zero test. -/
theorem Ending.divisionByZero (h : Ending i s t) (hnone : s.haltCause = .none)
    (hrec : t.haltCause = .fault (.divisionByZero p)) :
    DividesByZero i s ∧ p = s.pc ∧ t = s.raise .divisionByZero := by
  cases h with
  | continues t hkeep => simp [hkeep, hnone] at hrec
  | exits => simp at hrec
  | outOfBank bs c hc =>
    obtain ⟨b, off, rfl, -⟩ := hc
    simp at hrec
  | literalTarget w hr hreach => simp at hrec
  | zeroDivisor hdiv => exact ⟨hdiv, by simpa using hrec, rfl⟩

end Records

/-! ### The obligations -/

/-- Settles O31: a writer with a Literal right operand ends at its `Set`, and that ending is the only one that leaves this
record (R174). -/
theorem invalidWriteTargetRule : Obligations.InvalidWriteTargetRule := by
  refine ⟨fun op hop l w b s hl => ?total, fun l w b s hl => execMove_literal_right hl, fun l w b s hl hb =>
    execBinary_literal_right hl (divWords_ne_zero w hb), fun i s t p hnone hexec hrec => ?converse⟩
  case total =>
    obtain ⟨f, hf⟩ := exec_total_binary hop
    rw [hf]
    exact execBinary_literal_right hl rfl
  case converse =>
    obtain ⟨hliteral, hreach, hp, ht⟩ := (ending_of_exec hexec).invalidWriteTarget hnone hrec
    exact ⟨hliteral, hreach.writer, hreach.leftRead, hp, ht⟩

/-- Settles O32: the zero test is the only source of this record, and the other three computations have no error, so they
reach their write (R175). -/
theorem divisionByZeroRule : Obligations.DivisionByZeroRule := by
  refine ⟨fun l r a s hr hl => execDivide_zero hr hl,
    fun i s t p hnone hexec hrec => (ending_of_exec hexec).divisionByZero hnone hrec,
    fun op hop l bank off a b s hr hl => ?completes⟩
  obtain ⟨f, hf⟩ := exec_total_binary hop
  rw [hf]
  exact execBinary_completes hr hl rfl

end Sys2Proof.Machine
end

section
/-! PROOFS. Decoding and encoding: the words and their fields, and the order of the decoder's failures (`30_encoding.md` R61,
R65 to R68, R72). -/

namespace Sys2Proof

/-! ### The field split loses nothing -/

/-- The fields of the Words of given fields are these fields (R61). -/
@[simp] theorem fieldsOfWords_wordsOfFields (f : Fields) : fieldsOfWords (wordsOfFields f) = f := by
  have hw0 := wordsOfFields_w0_toNat f
  have hl := header_toNat_lt f.lmode
  have hr := header_toNat_lt f.rmode
  have hopcode : (fieldsOfWords (wordsOfFields f)).opcode = f.opcode :=
    BitVec.eq_of_toNat_eq (by rw [fieldsOfWords_opcode_toNat, hw0]; omega)
  have hlmode : (fieldsOfWords (wordsOfFields f)).lmode = f.lmode :=
    BitVec.eq_of_toNat_eq (by rw [fieldsOfWords_lmode_toNat, hw0]; omega)
  have hrmode : (fieldsOfWords (wordsOfFields f)).rmode = f.rmode :=
    BitVec.eq_of_toNat_eq (by rw [fieldsOfWords_rmode_toNat, hw0]; omega)
  cases f
  exact Fields.mk.injEq .. ▸ ⟨hopcode, hlmode, hrmode, rfl, rfl⟩

/-- The Words of the fields of given Words are these Words (R61). -/
@[simp] theorem wordsOfFields_fieldsOfWords (ws : InstrWords) : wordsOfFields (fieldsOfWords ws) = ws := by
  have hw0 : (wordsOfFields (fieldsOfWords ws)).w0 = ws.w0 := by
    apply BitVec.eq_of_toNat_eq
    rw [wordsOfFields_w0_toNat, fieldsOfWords_opcode_toNat, fieldsOfWords_lmode_toNat, fieldsOfWords_rmode_toNat]
    omega
  cases ws
  exact InstrWords.mk.injEq .. ▸ ⟨hw0, rfl, rfl⟩

/-! ### The decoder and the encoder on the fields -/

/-- Fields that decode are the encoding of their instruction. -/
theorem encodeFields_of_decodeFields {f : Fields} {i : Instr} (h : decodeFields f = .ok i) : encodeFields i = f := by
  simp only [decodeFields, bind, Except.bind] at h
  split at h
  · cases h
  · split at h
    · cases h
    · obtain ⟨hlmode, hlraw⟩ := resolve_ok ‹resolve f.lmode f.lval .left = _›
      obtain ⟨hrmode, hrraw⟩ := resolve_ok ‹resolve f.rmode f.rval .right = _›
      obtain ⟨hop, rfl, rfl⟩ := lookupOpcode_ok h
      cases f
      exact Fields.mk.injEq .. ▸ ⟨hop, hlmode, hrmode, hlraw, hrraw⟩

/-- The encoding of an instruction decodes to it. -/
theorem decodeFields_encodeFields (i : Instr) : decodeFields (encodeFields i) = .ok i :=
  decodeFields_ok (resolve_mode_raw i.left .left) (resolve_mode_raw i.right .right) (lookupOpcode_opcode i)

/-- Settles O2: words and fields determine one another, and on the fields decoder and encoder are inverse. -/
theorem decodeInvertsEncode : Obligations.DecodeInvertsEncode := by
  intro ws i
  constructor
  · intro h
    rw [encode, encodeFields_of_decodeFields h, wordsOfFields_fieldsOfWords]
  · rintro rfl
    rw [decode, encode, fieldsOfWords_wordsOfFields, decodeFields_encodeFields]

/-! ### The failures in their order -/

/-- The left header as a residue of the first Word (R61). -/
theorem fieldsOfWords_lmode_eq_ofNat (ws : InstrWords) :
    (fieldsOfWords ws).lmode = BitVec.ofNat 4 (ws.w0.toNat / 16 % 16) := by
  rw [← fieldsOfWords_lmode_toNat, BitVec.ofNat_toNat, BitVec.setWidth_eq]

/-- The right header as a residue of the first Word (R61). -/
theorem fieldsOfWords_rmode_eq_ofNat (ws : InstrWords) :
    (fieldsOfWords ws).rmode = BitVec.ofNat 4 (ws.w0.toNat % 16) := by
  rw [← fieldsOfWords_rmode_toNat, BitVec.ofNat_toNat, BitVec.setWidth_eq]

section Failures
variable {ws : InstrWords}

/-- A left header above 3 is the decoder's first failure (R65, R68). -/
theorem decode_unknownLeftMode (hleft : 3 < ws.w0.toNat / 16 % 16) :
    decode ws = .error (.unknownMode .left (BitVec.ofNat 4 (ws.w0.toNat / 16 % 16))) := by
  have hl : resolve (fieldsOfWords ws).lmode (fieldsOfWords ws).lval .left = .error _ :=
    resolve_eq_error.2 ⟨hleft.trans_eq (fieldsOfWords_lmode_toNat ws).symm, rfl⟩
  rw [← fieldsOfWords_lmode_eq_ofNat]
  simp only [decode, decodeFields, hl, bind, Except.bind]

/-- A right header above 3 is the second, after a left header up to 3. -/
theorem decode_unknownRightMode (hleft : ws.w0.toNat / 16 % 16 ≤ 3) (hright : 3 < ws.w0.toNat % 16) :
    decode ws = .error (.unknownMode .right (BitVec.ofNat 4 (ws.w0.toNat % 16))) := by
  obtain ⟨l, hl⟩ := resolve_isOk ((fieldsOfWords_lmode_toNat ws).trans_le hleft) (fieldsOfWords ws).lval .left
  have hr : resolve (fieldsOfWords ws).rmode (fieldsOfWords ws).rval .right = .error _ :=
    resolve_eq_error.2 ⟨hright.trans_eq (fieldsOfWords_rmode_toNat ws).symm, rfl⟩
  rw [← fieldsOfWords_rmode_eq_ofNat]
  simp only [decode, decodeFields, hl, hr, bind, Except.bind]

/-- With good headers and an opcode up to 6 the decoder has nothing left to refuse (R65). -/
theorem decode_isOk (hleft : ws.w0.toNat / 16 % 16 ≤ 3) (hright : ws.w0.toNat % 16 ≤ 3) (hop : ws.w0.toNat / 256 ≤ 6) :
    ∃ i, decode ws = .ok i := by
  cases hd : decode ws with
  | ok i => exact ⟨i, rfl⟩
  | error e =>
    have hbad := decodeFields_error hd
    rw [fieldsOfWords_lmode_toNat, fieldsOfWords_rmode_toNat, fieldsOfWords_opcode_toNat] at hbad
    omega

end Failures

/-- Settles O3: a failure for each of the three checks in order, and with all three passed the instruction that encodes to the
triple. -/
theorem decodeFailsInOrder : Obligations.DecodeFailsInOrder := by
  refine fun ws => ⟨decode_unknownLeftMode, decode_unknownRightMode, decode_unknownOpcode,
    fun hleft hright hop => ?instruction⟩
  obtain ⟨i, hi⟩ := decode_isOk hleft hright hop
  have hfields : encodeFields i = fieldsOfWords ws := encodeFields_of_decodeFields hi
  refine ⟨i, hi, ?_, congrArg Fields.lval hfields, congrArg Fields.rval hfields⟩
  exact (congrArg (fun f => f.opcode.toNat) hfields).trans (fieldsOfWords_opcode_toNat ws)

/-- Settles O1: each word is the encoding of its instruction, and what an instruction encodes to decodes to it. -/
theorem decodesWordsOfTheTable : Obligations.DecodesWordsOfTheTable := by
  refine ⟨?_, ?_, ?_, ?_, ?_, ?_, ?_⟩ <;> exact (decodeInvertsEncode _ _).2 (by decide)

end Sys2Proof
end

section
/-! PROOFS. The canonical form of program memory (log entry 1), and the two windows onto it (`20_memory.md` R41). -/

namespace Sys2Proof.Machine

/-! ### The entries of a canonical memory -/

section Canonical
variable {m n : Memory} {c : Nat × Word} {a : Nat}

/-- An entry is what its address reads as: no entry before it has the same address. -/
theorem Memory.read_of_mem (h : m.wf) (hc : c ∈ m) : m.read c.1 = c.2 := by
  obtain ⟨hsorted, -⟩ := h
  induction m with
  | nil => cases hc
  | cons d m ih =>
    obtain ⟨hfirst, hrest⟩ := List.pairwise_cons.1 hsorted
    rcases List.mem_cons.1 hc with rfl | hc
    · simp [Memory.read]
    · simp [Memory.read, (hfirst c hc).ne, ih hc hrest]

/-- An address that does not read as 0 is listed. -/
theorem Memory.mem_of_read (h : m.read a ≠ 0) : (a, m.read a) ∈ m := by
  induction m with
  | nil => exact absurd rfl h
  | cons d m ih =>
    by_cases hd : d.1 = a
    · subst hd
      simp [Memory.read]
    · simp only [Memory.read, if_neg hd] at h ⊢
      exact List.mem_cons_of_mem d (ih h)

/-- The entries of a canonical memory are entries of every memory that agrees with it on the array. -/
theorem Memory.subset_of_agrees (hm : m.wf) (hagree : ∀ a, a < Config.pmWords → m.read a = n.read a) : m ⊆ n := by
  intro c hc
  obtain ⟨hne, hlt⟩ := hm.2 c hc
  have hread : n.read c.1 = c.2 := (hagree c.1 hlt).symm.trans (Memory.read_of_mem hm hc)
  have hmem := Memory.mem_of_read (hread.trans_ne hne)
  rwa [hread] at hmem

end Canonical

/-- Settles O12: two such memories list the same entries, and both list them by rising address. -/
theorem canonicalMemoryIsUnique : Obligations.CanonicalMemoryIsUnique := by
  intro m n hm hn hagree
  have hirrefl : Std.Irrefl fun c d : Nat × Word => c.1 < d.1 := ⟨fun c => Nat.lt_irrefl c.1⟩
  have hantisymm : Std.Antisymm fun c d : Nat × Word => c.1 < d.1 := ⟨fun _ _ h h' => absurd h' (Nat.lt_asymm h)⟩
  exact List.Subset.antisymm_of_pairwise hm.1 hn.1 (Memory.subset_of_agrees hm hagree)
    (Memory.subset_of_agrees hn fun a ha => (hagree a ha).symm)

/-! ### What one write leaves of the registers and of program memory -/

section WroteOnly
variable {s t : State} {k : Loc} {a : Nat} {v : Word}

/-- A write of one location leaves every other register. -/
theorem State.WroteOnly.getReg_ne (h : s.WroteOnly t k v) {i : Fin Config.srWords} (hk : k ≠ .reg i) :
    t.getReg i = s.getReg i := by
  have hi := h.others (.reg i) hk.symm
  rwa [State.readLoc_reg i.isLt, State.readLoc_reg i.isLt, Option.some_inj] at hi

/-- A write of program memory leaves every register. -/
theorem State.WroteOnly.getReg_of_pm (h : s.WroteOnly t (.pm a) v) (i : Fin Config.srWords) : t.getReg i = s.getReg i :=
  h.getReg_ne nofun

/-- Program memory after a write of one of its words. -/
theorem State.WroteOnly.pm_read (h : s.WroteOnly t (.pm a) v) {b : Nat} (hb : b < Config.pmWords) :
    t.pm.read b = if b = a then v else s.pm.read b := by
  rw [← Option.some_inj, ← State.readLoc_pm hb]
  split
  · subst b
    exact h.target
  · rw [h.others (.pm b) (by simpa using ‹b ≠ a›), State.readLoc_pm hb]

/-- A write of program memory moves no bank. -/
theorem State.WroteOnly.bankTarget_of_pm (h : s.WroteOnly t (.pm a) v) (b : Bank) (off : Nat) :
    bankTarget t b off = bankTarget s b off := by
  cases b <;> simp only [bankTarget, h.getReg_of_pm]

end WroteOnly

/-- A word of program memory written under one name is read under every other name of it (R41). -/
theorem bankRead_of_same_target {s t : State} {b c : Bank} {o p a : Nat} {v : Word} (hb : bankTarget s b o = .pm a)
    (hc : bankTarget s c p = .pm a) (h : bankWrite s b o v = .ok t) : bankRead t c p = .ok v := by
  have hone : s.WroteOnly t (.pm a) v := hb ▸ bankWrite_wroteOnly h
  rw [bankRead_eq_ok, hone.bankTarget_of_pm, hc]
  exact hone.target

/-- Settles O11: the two names have one target, and a write through either moves neither bank (R41). -/
theorem stackAndDataAlias : Obligations.StackAndDataAlias := by
  intro s t o p v hsame
  have hstack : bankTarget s .stack o = .pm ((s.getReg Config.dsb).toNat + p) := congrArg Loc.pm hsame
  exact ⟨bankRead_of_same_target hstack rfl, bankRead_of_same_target rfl hstack⟩

end Sys2Proof.Machine
end

section
/-! PROOFS. Fetch: what it reads, where it fails, what it sees of a store, and the model's placing of an instruction
(`41_fetch_dispatch.md` R100, `20_memory.md` R46; log entries 14 and 15). -/

namespace Sys2Proof.Machine

/-! ### Where a fetch succeeds -/

section Fetch
variable {s t : State} {p v : Word} {a k : Nat}

/-- The address of an instruction, three times its index (R100). -/
theorem instructionAddress_eq (p : Word) : p.toNat * Config.instructionWidth = 3 * p.toNat := Nat.mul_comm ..

/-- Up to `MAX_PC` all three Words are in program memory (R100). -/
theorem fetch_in (h : p.toNat ≤ Config.maxPc) :
    fetch s p = .ok ⟨s.pm.read (3 * p.toNat), s.pm.read (3 * p.toNat + 1), s.pm.read (3 * p.toNat + 2)⟩ := by
  have hslot : 3 * p.toNat + 2 < Config.pmWords := by
    have := Config.maxPc_eq; have := Config.pmWords_eq
    omega
  have hread (a : Nat) (ha : a ≤ 3 * p.toNat + 2) : memRead s a = .ok (s.pm.read a) := memRead_in (ha.trans_lt hslot)
  simp only [fetch, instructionAddress_eq, hread, bind, Except.bind, pure, Except.pure, Nat.le_add_right,
    Nat.add_le_add_iff_left, Nat.one_le_ofNat, Nat.le_refl]

/-- Index 1365 has its first Word alone in program memory: the second is reported (D7). -/
theorem fetch_straddling (h : p.toNat = 1365) : fetch s p = .error (.boundsViolation .program 4096) := by
  have hfirst : memRead s (3 * p.toNat) = .ok (s.pm.read (3 * p.toNat)) := memRead_in (by rw [h]; decide)
  have hsecond : memRead s (3 * p.toNat + 1) = .error (.boundsViolation .program 4096) := by
    rw [h]
    exact memRead_out (by decide)
  simp only [fetch, instructionAddress_eq, hfirst, hsecond, bind, Except.bind]

/-- Above it the first Word is outside, at the untruncated address (D6). -/
theorem fetch_out (h : 1365 < p.toNat) : fetch s p = .error (.boundsViolation .program (3 * p.toNat)) := by
  have hfirst : memRead s (3 * p.toNat) = .error (.boundsViolation .program (3 * p.toNat)) :=
    memRead_out (by have := Config.pmWords_eq; omega)
  simp only [fetch, instructionAddress_eq, hfirst, bind, Except.bind]

/-- A fetch that fails gives the step its condition (R102). -/
theorem fetchDecode_fetch_fails {c : FatalCondition} (h : fetch s p = .error c) : fetchDecode s p = .error c := by
  simp only [fetchDecode, h]

/-- The fetch after a store into an instruction's slot (R46). -/
theorem fetch_of_wroteOnly (hp : p.toNat ≤ Config.maxPc) (h : s.WroteOnly t (.pm (3 * p.toNat + k)) v) :
    fetch t p = .ok ⟨if k = 0 then v else s.pm.read (3 * p.toNat), if k = 1 then v else s.pm.read (3 * p.toNat + 1),
      if k = 2 then v else s.pm.read (3 * p.toNat + 2)⟩ := by
  have hslot : 3 * p.toNat + 2 < Config.pmWords := by
    have := Config.maxPc_eq; have := Config.pmWords_eq
    omega
  rw [fetch_in hp, h.pm_read (by omega), h.pm_read (by omega), h.pm_read hslot]
  simp [eq_comm]

end Fetch

/-- Settles O37: the first Word out of range decides, and the step takes its condition (R100, R106). -/
theorem fetchReadsThreeWords : Obligations.FetchReadsThreeWords := by
  refine fun s p => ⟨fetch_in, fetch_straddling, fetch_out, fun hrun hpc hp => ?wholeStep⟩
  subst hpc
  exact step_fetch_fails hrun (fetchDecode_fetch_fails (fetch_out hp))

/-- Settles O42: a store writes one Word of program memory alone, and a fetch reads program memory (R46). -/
theorem storesAreSeenByFetch : Obligations.StoresAreSeenByFetch := by
  intro s t bank off v p k hp _ htarget hwrite
  exact ⟨_, fetch_in hp, fetch_of_wroteOnly hp (htarget ▸ bankWrite_wroteOnly hwrite)⟩

/-! ### The placing of an instruction -/

/-- The 48-bit number of three Words stands for these Words (R62). -/
theorem tableWords_of_words (w0 w1 w2 : Word) :
    tableWords 48 (w0.toNat * 2 ^ 32 + w1.toNat * 2 ^ 16 + w2.toNat) = ⟨w0, w1, w2⟩ := by
  have h0 := word_toNat_lt w0
  have h1 := word_toNat_lt w1
  have h2 := word_toNat_lt w2
  refine InstrWords.mk.injEq .. ▸ ⟨?_, ?_, ?_⟩
  all_goals
    apply BitVec.eq_of_toNat_eq
    simp
    omega

section Placing
variable (s : State) (ws : InstrWords)

/-- A state made ready is Running (log entry 15). -/
theorem readyToFetch_runState : (readyToFetch s).runState = .running := by
  cases hs : s.runState <;> simp only [readyToFetch, hs] <;> split <;> simp [hs]

/-- A state made ready has its program counter at an instruction that can be fetched. -/
theorem readyToFetch_pc_le : (readyToFetch s).pc.toNat ≤ Config.maxPc := by
  unfold readyToFetch
  extract_lets r
  split
  · assumption
  · rw [State.setReg_pcReg_pc]
    exact Nat.zero_le _

/-- The placed Words are fetched at the program counter. -/
theorem fetch_placeAtPc {s : State} (h : s.pc.toNat ≤ Config.maxPc) : fetch (placeAtPc s ws) s.pc = .ok ws := by
  rw [fetch_in h]
  simp [placeAtPc, instructionAddress_eq, Memory.read_write_same, Memory.read_write_ne]

end Placing

/-- Settles O52: the state made ready fetches at its program counter, where the three Words are placed. -/
theorem fetchWordIsFetchedNext : Obligations.FetchWordIsFetchedNext := by
  intro s w0 w1 w2
  rw [State.withFetchWord, tableWords_of_words]
  exact ⟨readyToFetch_runState s, fetch_placeAtPc _ (readyToFetch_pc_le s)⟩

end Sys2Proof.Machine
end

section
/-! PROOFS. The five writing instructions: their results, their frame, the order of their faults, and the writes of `R[1]`
(`42_pass_move.md`, `43_arithmetic.md`, `41_fetch_dispatch.md` R108). -/

namespace Sys2Proof

/-- The modulus of a Word as a numeral (R4). -/
theorem Config.two_pow_wordBits : 2 ^ Config.wordBits = 65536 := rfl

end Sys2Proof

namespace Sys2Proof.Machine

/-! ### The results as numbers -/

section Results
variable (a b : Word)

theorem addWords_toNat : (addWords a b).toNat = (a.toNat + b.toNat) % 65536 := by
  rw [addWords_eq, BitVec.toNat_add, Config.two_pow_wordBits]

/-- The non-negative residue of the difference (R4, R131). -/
theorem subWords_toNat : ((subWords a b).toNat : Int) = ((a.toNat : Int) - b.toNat) % 65536 := by
  have ha := word_toNat_lt a
  have hb := word_toNat_lt b
  rw [subWords_eq, BitVec.toNat_sub, Config.two_pow_wordBits]
  omega

theorem mulWords_toNat : (mulWords a b).toNat = a.toNat * b.toNat % 65536 := by
  rw [mulWords_eq, BitVec.toNat_mul, Config.two_pow_wordBits]

/-- The quotient of R133: the one number of divisors that fit. -/
theorem udiv_bounds {b : Word} (hb : b ≠ 0) :
    (a / b).toNat * b.toNat ≤ a.toNat ∧ a.toNat < ((a / b).toNat + 1) * b.toNat := by
  have hpos : 0 < b.toNat := Nat.pos_of_ne_zero fun h => hb (BitVec.eq_of_toNat_eq h)
  rw [BitVec.toNat_udiv, Nat.add_mul, Nat.one_mul]
  exact ⟨Nat.div_mul_le_self .., Nat.lt_div_mul_add hpos⟩

end Results

/-! ### The writers complete on a reference they can write -/

section Completes
variable {l : Operand} {s : State} {bank : Bank} {off a b v : Word}

/-- A reference that can be read is in bounds. -/
theorem inBounds_of_getOperand (h : getOperand s (.ref bank off) = .ok a) : inBounds s bank off.toNat = true := by
  cases hin : inBounds s bank off.toNat with
  | true => rfl
  | false => simp [bankRead_out hin] at h

/-- `move` to a reference in bounds writes the left operand's Word there and nothing else (R121). -/
theorem execMove_writes (hl : getOperand s l = .ok v) (hin : inBounds s bank off.toNat = true) :
    ∃ t, execMove l (.ref bank off) s = .next t ∧ s.WroteOnly t (bankTarget s bank off.toNat) v := by
  obtain ⟨t, ht, hone⟩ := setOperand_ref_in hin v
  exact ⟨t, by rw [execMove_read hl, ht, complete_ok], hone⟩

/-- The arithmetic shape on a readable reference writes the result there and nothing else (R130 to R133). -/
theorem execBinary_writes {op : Word → Word → Except FatalCondition Word} (hr : getOperand s (.ref bank off) = .ok a)
    (hl : getOperand s l = .ok b) (hop : op a b = .ok v) :
    ∃ t, execBinary op l (.ref bank off) s = .next t ∧ s.WroteOnly t (bankTarget s bank off.toNat) v := by
  obtain ⟨t, ht, hone⟩ := setOperand_ref_in (inBounds_of_getOperand hr) v
  exact ⟨t, by rw [execBinary_read hr hl hop, ht, complete_ok], hone⟩

/-- A reference still names its cell after that cell was written: a System reference is no base's, and program memory holds no
base. -/
theorem State.WroteOnly.bankTarget_same {t : State} {n : Nat} (h : s.WroteOnly t (bankTarget s bank n) v) :
    bankTarget t bank n = bankTarget s bank n := by
  cases bank with
  | system => rfl
  | stack => exact h.bankTarget_of_pm .stack n
  | data => exact h.bankTarget_of_pm .data n

end Completes

/-- Settles O14: the write of the target is all that `move` does, and the reference still names that target afterwards. -/
theorem moveCopiesTheWord : Obligations.MoveCopiesTheWord := by
  intro s l bank off v hl hin
  obtain ⟨t, ht, hone⟩ := execMove_writes hl hin
  exact ⟨t, ht, hone, bankRead_eq_ok.2 (hone.bankTarget_same ▸ hone.target)⟩

/-- Settles O15: `add` is the arithmetic shape over a computation that always succeeds. -/
theorem addWrapsModulo : Obligations.AddWrapsModulo := by
  intro s l bank off a b hr hl
  obtain ⟨t, ht, hone⟩ := execBinary_writes (op := fun a b => .ok (addWords a b)) hr hl rfl
  exact ⟨t, _, ht, addWords_toNat a b, hone⟩

/-- Settles O16: `subtract` is the arithmetic shape over a computation that always succeeds. -/
theorem subtractIsRightMinusLeft : Obligations.SubtractIsRightMinusLeft := by
  intro s l bank off a b hr hl
  obtain ⟨t, ht, hone⟩ := execBinary_writes (op := fun a b => .ok (subWords a b)) hr hl rfl
  exact ⟨t, _, ht, subWords_toNat a b, hone⟩

/-- Settles O17: `multiply` is the arithmetic shape over a computation that always succeeds. -/
theorem multiplyKeepsTheLowHalf : Obligations.MultiplyKeepsTheLowHalf := by
  intro s l bank off a b hr hl
  obtain ⟨t, ht, hone⟩ := execBinary_writes (op := fun a b => .ok (mulWords a b)) hr hl rfl
  exact ⟨t, _, ht, mulWords_toNat a b, hone⟩

/-- Settles O18: with the divisor not 0 the zero test passes and the quotient is written. -/
theorem divideGivesTheFloor : Obligations.DivideGivesTheFloor := by
  intro s l bank off a b hr hl hb
  obtain ⟨t, ht, hone⟩ := execBinary_writes hr hl (divWords_ne_zero a hb)
  obtain ⟨hle, hlt⟩ := udiv_bounds a hb
  exact ⟨t, _, ht, hle, hlt, hone⟩

/-! ### What a writer can do -/

/-- The four arithmetic instructions have one shape (R130 to R133). -/
theorem exec_arithmetic {op : Operand → Operand → Instr}
    (hop : op ∈ [Instr.add, Instr.subtract, Instr.multiply, Instr.divide]) :
    ∃ f : Word → Word → Except FatalCondition Word, ∀ l r s, exec (op l r) s = execBinary f l r s := by
  simp only [List.mem_cons, List.not_mem_nil, or_false] at hop
  obtain rfl | rfl | rfl | rfl := hop
  · exact ⟨fun a b => .ok (addWords a b), fun _ _ _ => rfl⟩
  · exact ⟨fun a b => .ok (subWords a b), fun _ _ _ => rfl⟩
  · exact ⟨fun a b => .ok (mulWords a b), fun _ _ _ => rfl⟩
  · exact ⟨divWords, fun _ _ _ => rfl⟩

/-- The two things a writer with right operand `r` can do: write the cell that `r` names, or take a fatal condition with
nothing changed before it (R179). -/
inductive WriterResult (r : Operand) (s : State) : State → Prop where
  | wrote (bank : Bank) (off v : Word) (t : State) (hr : r = .ref bank off)
      (h : s.WroteOnly t (bankTarget s bank off.toNat) v) : WriterResult r s t
  | raised (c : FatalCondition) : WriterResult r s (s.raise c)

section WriterResults
variable {l r : Operand} {s t : State} {v : Word}

/-- The result of a handler's `Set`. -/
theorem WriterResult.of_set (h : complete s (setOperand s r v) = .next t) : WriterResult r s t := by
  cases hset : setOperand s r v with
  | error c =>
    rw [hset, complete_error] at h
    cases h
    exact .raised c
  | ok u =>
    rw [hset, complete_ok] at h
    cases h
    obtain ⟨bank, off, hr, hw⟩ := setOperand_ok hset
    exact .wrote bank off v _ hr (bankWrite_wroteOnly (bankWrite_eq_ok.2 hw))

theorem execMove_result (h : execMove l r s = .next t) : WriterResult r s t := by
  cases hl : getOperand s l with
  | error c =>
    rw [execMove_left_fails hl] at h
    cases h
    exact .raised c
  | ok v =>
    rw [execMove_read hl] at h
    exact .of_set h

theorem execBinary_result {op : Word → Word → Except FatalCondition Word} (h : execBinary op l r s = .next t) :
    WriterResult r s t := by
  cases hr : getOperand s r with
  | error c =>
    rw [execBinary_right_fails hr] at h
    cases h
    exact .raised c
  | ok a =>
    cases hl : getOperand s l with
    | error c =>
      rw [execBinary_left_fails hr hl] at h
      cases h
      exact .raised c
    | ok b =>
      cases hv : op a b with
      | error c =>
        rw [execBinary_op_fails hr hl hv] at h
        cases h
        exact .raised c
      | ok v =>
        rw [execBinary_read hr hl hv] at h
        exact .of_set h

/-- Each of the five writers has one of these results. -/
theorem exec_writer_result {op : Operand → Operand → Instr}
    (hop : op ∈ [Instr.move, Instr.add, Instr.subtract, Instr.multiply, Instr.divide])
    (h : exec (op l r) s = .next t) : WriterResult r s t := by
  rcases List.mem_cons.1 hop with rfl | hop
  · exact execMove_result h
  · obtain ⟨f, hf⟩ := exec_arithmetic hop
    exact execBinary_result (hf l r s ▸ h)

end WriterResults

@[simp] theorem State.raise_readLoc (s : State) (c : FatalCondition) (k : Loc) : (s.raise c).readLoc k = s.readLoc k := by
  cases k <;> rfl

/-- Settles O25: a write of the named cell leaves the rest, and a fatal condition leaves every cell. -/
theorem writersFrame : Obligations.WritersFrame := by
  intro op hop l r s t hexec
  cases exec_writer_result hop hexec with
  | wrote bank off v t hr hone =>
    exact ⟨fun k hk => hone.others k (hk bank off hr), hone.out, .inl ⟨hone.runState, hone.haltCause⟩⟩
  | raised c => exact ⟨fun k _ => State.raise_readLoc s c k, rfl, .inr ⟨c, rfl⟩⟩

/-! ### The order of the faults -/

/-- Settles O33: the left read comes before the `Set`, whose own faults are the Literal and the bounds (R178, D9). -/
theorem moveFaultOrder : Obligations.MoveFaultOrder := by
  refine fun s l r => ⟨?leftOut, ?literal, ?rightOut⟩
  case leftOut =>
    rintro bank off rfl hout
    exact execMove_left_fails (getOperand_ref_out hout)
  case literal =>
    rintro v w hl rfl
    exact execMove_literal_right hl
  case rightOut =>
    rintro v bank off hl rfl hout
    calc exec (.move l (.ref bank off)) s
      _ = complete s (setOperand s (.ref bank off) v) := execMove_read hl
      _ = .next (s.raise (.boundsViolation (.bank bank) off.toNat)) := by
        rw [setOperand_ref, bankWrite_out hout, complete_error]

/-- Settles O34: each fault is met with all the earlier ones passed; `divide` alone has the zero test before its `Set`. -/
theorem arithmeticFaultOrder : Obligations.ArithmeticFaultOrder := by
  refine ⟨fun op hop s l r => ?reads, fun op hop s l w b hl => ?total, fun s l w b hl => ?divide⟩
  case reads =>
    obtain ⟨f, hf⟩ := exec_arithmetic hop
    rw [hf]
    refine ⟨?_, ?_⟩
    · rintro bank off rfl hout
      exact execBinary_right_fails (getOperand_ref_out hout)
    · rintro a bank off hr rfl hout
      exact execBinary_left_fails hr (getOperand_ref_out hout)
  case total =>
    obtain ⟨f, hf⟩ := exec_total_binary hop
    rw [hf]
    exact execBinary_literal_right hl rfl
  case divide =>
    split
    · subst b
      exact execDivide_zero (getOperand_literal s w) hl
    · exact execBinary_literal_right hl (divWords_ne_zero w ‹_›)

/-! ### Writes of the program counter -/

/-- The second of two writes of one register stands. -/
@[simp] theorem State.setReg_setReg (s : State) (i : Fin Config.srWords) (v w : Word) :
    (s.setReg i v).setReg i w = s.setReg i w := by
  simp [State.setReg]

/-- The advance after a write of `x[1]` starts from the value written (R107). -/
theorem State.advance_setReg_pcReg (s : State) (v : Word) :
    (s.setReg Config.pcReg v).advance = s.setReg Config.pcReg (v + 1) := by
  rw [State.advance, State.setReg_pcReg_pc, State.setReg_setReg]

section WritesPc
variable {s : State} {l : Operand} {v w : Word}

/-- A step whose handler sets `x[1]` to `v` continues at `v + 1` (R108, D3). -/
theorem step_of_exec_setReg_pcReg {i : Instr} (hrun : s.runState = .running) (hf : fetchDecode s s.pc = .ok i)
    (he : exec i s = .next (s.setReg Config.pcReg v)) : step s = .next (s.setReg 1 (v + 1)) :=
  (step_continues hrun hf he hrun).trans (congrArg _ (State.advance_setReg_pcReg s v))

theorem execMove_pcReg (hl : getOperand s l = .ok v) :
    execMove l (.ref .system 1) s = .next (s.setReg Config.pcReg v) := by
  rw [execMove_read hl, setOperand_system (by decide), complete_ok]
  rfl

/-- The arithmetic shape with `R[1]` on the right computes from the program counter. -/
theorem execBinary_pcReg {op : Word → Word → Except FatalCondition Word} (hl : getOperand s l = .ok v)
    (hop : op s.pc v = .ok w) : execBinary op l (.ref .system 1) s = .next (s.setReg Config.pcReg w) := by
  have hr : getOperand s (.ref .system 1) = .ok s.pc := getOperand_system (by decide)
  rw [execBinary_read hr hl hop, setOperand_system (by decide), complete_ok]
  rfl

end WritesPc

/-- Settles O41: each of the five sets `x[1]` to its result, and the advance follows (R108). -/
theorem writingPcTransfersControl : Obligations.WritingPcTransfersControl := by
  intro s l v hrun hl
  refine ⟨fun hf => ?_, fun hf => ?_, fun hf => ?_, fun hf => ?_, fun hf hv => ?_⟩ <;>
    refine step_of_exec_setReg_pcReg hrun hf ?_
  · exact execMove_pcReg hl
  · exact execBinary_pcReg hl (congrArg _ (addWords_eq s.pc v))
  · exact execBinary_pcReg hl (congrArg _ (subWords_eq s.pc v))
  · exact execBinary_pcReg hl (congrArg _ (mulWords_eq s.pc v))
  · exact execBinary_pcReg hl (divWords_ne_zero s.pc hv)

end Sys2Proof.Machine
end

section
/-! PROOFS. `syscall`: its results by selector, its frame, and the string of selector 1 (`44_syscall.md` R150 to R154). -/

namespace Sys2Proof.Machine

/-! ### What a `syscall` can do -/

/-- The results of `syscall`, by what its left operand reads as (R150). -/
inductive SyscallResult (l r : Operand) (s : State) : State → Prop where
  | leftFails (c : FatalCondition) (h : getOperand s l = .error c) : SyscallResult l r s (s.raise c)
  | exits (h : getOperand s l = .ok 0) : SyscallResult l r s (s.halt .exit)
  | outputs (h : getOperand s l = .ok 1) : SyscallResult l r s (output s r)
  | ignores (sel : Word) (h : getOperand s l = .ok sel) (h0 : sel ≠ 0) (h1 : sel ≠ 1) : SyscallResult l r s s

section Results
variable {l r : Operand} {s t : State}

/-- Selector 0 is the exit (R151). -/
theorem exec_syscall_zero (hl : getOperand s l = .ok 0) : exec (.syscall l r) s = .next (s.halt .exit) := by
  rw [exec_syscall hl, if_pos rfl]

theorem exec_syscall_result (h : exec (.syscall l r) s = .next t) : SyscallResult l r s t := by
  cases hl : getOperand s l with
  | error c =>
    cases (execSyscall_left_fails (r := r) hl).symm.trans h
    exact .leftFails c hl
  | ok sel =>
    cases (exec_syscall (r := r) hl).symm.trans h
    split
    · subst sel
      exact .exits hl
    · split
      · subst sel
        exact .outputs hl
      · exact .ignores sel hl ‹_› ‹_›

/-- Output never exits: it leaves the halt cause or replaces it by a fault. -/
theorem output_haltCause_ne_exit (h : s.haltCause ≠ .exit) : (output s r).haltCause ≠ .exit := by
  obtain ⟨bs, ho | ⟨c, -, ho⟩⟩ := output_cases s r <;> rw [ho]
  · exact h
  · nofun

/-- Only selector 0 exits. -/
theorem SyscallResult.haltCause_eq_exit (h : SyscallResult l r s t) (hs : s.haltCause ≠ .exit) :
    t.haltCause = .exit ↔ getOperand s l = .ok 0 := by
  cases h with
  | leftFails c hl => simp [hl]
  | exits hl => simp [hl]
  | outputs hl => simp [hl, output_haltCause_ne_exit hs]
  | ignores sel hl h0 h1 => simp only [hl, hs, Except.ok.injEq, h0]

end Results

/-- Settles O19: the handler halts the machine, so the step does not advance it, and a Halted machine has no step; no other
selector leaves the cause Exit (R151). -/
theorem selectorZeroTerminates : Obligations.SelectorZeroTerminates := by
  refine ⟨fun l r s hl => ⟨exec_syscall_zero hl, fun hrun hf => ?wholeStep⟩, fun r s t hnone hexec => ?accumulator,
    by decide, by decide, fun s => exec_syscall_zero rfl⟩
  case wholeStep => exact ⟨_, step_runs hrun hf (exec_syscall_zero hl), finishStep_halted rfl, step_halted rfl⟩
  case accumulator =>
    have hacc : getOperand s (.ref .system 0) = .ok (s.getReg 0) := getOperand_system (by decide)
    rw [(exec_syscall_result hexec).haltCause_eq_exit (by simp [hnone]), hacc, Except.ok.injEq]

/-- Settles O26: each result is checked against the frame; a violation comes from the left operand or from a string (R150 to
R154). -/
theorem syscallFrame : Obligations.SyscallFrame := by
  intro l r s t hexec
  cases exec_syscall_result hexec with
  | leftFails c hl =>
    obtain ⟨bank, off, rfl, hout, -⟩ := getOperand_error hl
    exact ⟨rfl, rfl, ⟨[], by simp⟩, fun h => absurd rfl h, .inr (.inr ⟨bank, off, hout, .inl hl, rfl, rfl⟩)⟩
  | exits hl => exact ⟨rfl, rfl, ⟨[], by simp⟩, fun h => absurd rfl h, .inr (.inl ⟨hl, rfl, rfl⟩)⟩
  | outputs hl =>
    obtain ⟨bs, ho | ⟨c, ⟨bank, off, rfl, hout, -⟩, ho⟩⟩ := output_cases s r <;> rw [ho]
    · exact ⟨rfl, rfl, ⟨bs, rfl⟩, fun _ => hl, .inl ⟨rfl, rfl⟩⟩
    · exact ⟨rfl, rfl, ⟨bs, rfl⟩, fun _ => hl, .inr (.inr ⟨bank, off, hout, .inr hl, rfl, rfl⟩)⟩
  | ignores sel hl h0 h1 => exact ⟨rfl, rfl, ⟨[], by simp⟩, fun h => absurd rfl h, .inl ⟨rfl, rfl⟩⟩

/-- Settles O27: the right operand enters the handler's result through the output alone (R150, D17). -/
theorem syscallReadsOnlyWhatItNeeds : Obligations.SyscallReadsOnlyWhatItNeeds := by
  refine ⟨fun r s bank off hout => execSyscall_left_fails (getOperand_ref_out hout), fun l r r' s hne => ?_⟩
  cases hl : getOperand s l with
  | error c => exact (execSyscall_left_fails hl).trans (execSyscall_left_fails hl).symm
  | ok sel =>
    have hsel : sel ≠ 1 := by
      rintro rfl
      exact hne hl
    rw [exec_syscall hl, exec_syscall hl, if_neg hsel, if_neg hsel]

/-! ### The string, Word by Word -/

/-- The Words `ws` stand in a bank from an offset on, and none of their bytes is zero: what the loop of R153 passes over. -/
structure FullWords (s : State) (bank : Bank) (off : Nat) (ws : List Word) : Prop where
  reads : ∀ (k : Nat) (h : k < ws.length), bankRead s bank (off + k) = .ok ws[k]
  full : ∀ u ∈ ws, hiByte u ≠ 0 ∧ loByte u ≠ 0

section String
variable {s : State} {bank : Bank} {off : Nat} {w : Word} {ws : List Word}

theorem FullWords.nil : FullWords s bank off [] := ⟨nofun, nofun⟩

theorem fullWords_cons :
    FullWords s bank off (w :: ws) ↔
      bankRead s bank off = .ok w ∧ (hiByte w ≠ 0 ∧ loByte w ≠ 0) ∧ FullWords s bank (off + 1) ws := by
  constructor
  · rintro ⟨hreads, hfull⟩
    obtain ⟨hw, hws⟩ := List.forall_mem_cons.1 hfull
    exact ⟨hreads 0 (Nat.succ_pos _), hw,
      fun k hk => (congrArg _ (Nat.add_right_comm off 1 k)).trans (hreads (k + 1) (Nat.succ_lt_succ hk)), hws⟩
  · rintro ⟨hread, hw, hreads, hfull⟩
    refine ⟨fun k hk => ?_, List.forall_mem_cons.2 ⟨hw, hfull⟩⟩
    cases k with
    | zero => exact hread
    | succ k => exact (congrArg _ (Nat.add_right_comm off k 1)).trans (hreads k (Nat.lt_of_succ_lt_succ hk))

/-- The string of full Words is their bytes, and then the string that follows them. -/
theorem FullWords.stringAt_eq (h : FullWords s bank off ws) :
    stringAt s bank off = (ws.flatMap (fun u => [hiByte u, loByte u]) ++ (stringAt s bank (off + ws.length)).1,
      (stringAt s bank (off + ws.length)).2) := by
  induction ws generalizing off with
  | nil => rfl
  | cons w ws ih =>
    obtain ⟨hread, ⟨hhi, hlo⟩, hws⟩ := fullWords_cons.1 h
    rw [Machine.stringAt_eq, hread, ih hws, Nat.add_assoc, Nat.add_comm 1]
    simp only [if_neg hhi, if_neg hlo]
    rfl

/-- A Word with a zero byte ends the string, with its high byte if that one is not zero. -/
theorem stringAt_of_zeroByte (hread : bankRead s bank off = .ok w) (hzero : hiByte w = 0 ∨ loByte w = 0) :
    stringAt s bank off = (if hiByte w = 0 then [] else [hiByte w], none) := by
  rw [stringAt_eq, hread]
  by_cases hhi : hiByte w = 0
  · simp only [if_pos hhi]
  · simp only [if_neg hhi, if_pos (hzero.resolve_left hhi)]

/-- The end of the bank ends the string with the violation. -/
theorem stringAt_out (hout : inBounds s bank off = false) :
    stringAt s bank off = ([], some (.boundsViolation (.bank bank) off)) := by
  rw [stringAt_eq, bankRead_out hout]

end String

/-! ### The output of a string -/

section Output
variable {s : State} {l : Operand} {bank : Bank} {off : Word} {bs : List Byte} {ws : List Word} {w : Word}

/-- A string that ends in a zero byte is emitted after `DIAG_PREFIX` (R153). -/
theorem output_of_terminated (h : stringAt s bank off.toNat = (bs, none)) :
    output s (.ref bank off) = s.emit (Config.diagPrefix ++ bs) := by
  simp only [output, h]

/-- A string that does not is emitted likewise before its condition is taken (D15). -/
theorem output_of_unterminated {c : FatalCondition} (h : stringAt s bank off.toNat = (bs, some c)) :
    output s (.ref bank off) = (s.emit (Config.diagPrefix ++ bs)).raise c := by
  simp only [output, h]

/-- The handler on full Words followed by one with a zero byte. -/
theorem exec_syscall_terminated (hl : getOperand s l = .ok 1) (hws : FullWords s bank off.toNat ws)
    (hread : bankRead s bank (off.toNat + ws.length) = .ok w) (hzero : hiByte w = 0 ∨ loByte w = 0) :
    exec (.syscall l (.ref bank off)) s = .next (s.emit (Config.diagPrefix ++
      (ws.flatMap (fun u => [hiByte u, loByte u]) ++ if hiByte w = 0 then [] else [hiByte w]))) := by
  rw [exec_syscall_one hl, output_of_terminated]
  rw [hws.stringAt_eq, stringAt_of_zeroByte hread hzero]

/-- The handler on full Words up to the end of their bank. -/
theorem exec_syscall_unterminated (hl : getOperand s l = .ok 1) (hws : FullWords s bank off.toNat ws)
    (hout : inBounds s bank (off.toNat + ws.length) = false) :
    exec (.syscall l (.ref bank off)) s = .next
      ((s.emit (Config.diagPrefix ++ ws.flatMap fun u => [hiByte u, loByte u])).raise
        (.boundsViolation (.bank bank) (off.toNat + ws.length))) := by
  rw [exec_syscall_one hl, output_of_unterminated]
  rw [hws.stringAt_eq, stringAt_out hout, List.append_nil]

end Output

/-- Settles O22: the loop passes over the full Words and ends in the one with a zero byte (R153). -/
theorem stringOutputStopsAtZeroByte : Obligations.StringOutputStopsAtZeroByte := by
  intro s l bank off ws w hl hreads hfull hread hzero
  refine ⟨_, exec_syscall_terminated hl ⟨hreads, hfull⟩ hread hzero, ?_, rfl, rfl, rfl, rfl⟩
  simp only [State.emit_out, List.append_assoc]

/-- Settles O23: the loop passes over the full Words and meets the end of the bank, after their bytes were emitted (R153,
R173). -/
theorem unterminatedStringFaults : Obligations.UnterminatedStringFaults := by
  intro s l bank off ws hl hreads hfull hout
  rw [exec_syscall_unterminated hl ⟨hreads, hfull⟩ hout, List.append_assoc]
  rfl

/-! ### Every string ends -/

section Ends
variable (s : State) (bank : Bank)

/-- Each Word passed over leaves one cell fewer in the bank. -/
theorem cellsFrom_add (off n : Nat) : cellsFrom s bank (off + n) = cellsFrom s bank off - n := by
  induction n with
  | zero => rfl
  | succ n ih => rw [← Nat.add_assoc, cellsFrom_succ, ih, Nat.sub_sub]

/-- From every offset the string passes over as many Words as the bank has cells left, at most, and then ends. -/
theorem exists_fullWords (off : Nat) : ∃ ws : List Word, ws.length ≤ cellsFrom s bank off ∧ FullWords s bank off ws ∧
    ((∃ w, bankRead s bank (off + ws.length) = .ok w ∧ (hiByte w = 0 ∨ loByte w = 0)) ∨
      inBounds s bank (off + ws.length) = false) := by
  induction hn : cellsFrom s bank off generalizing off with
  | zero =>
    refine ⟨[], Nat.zero_le _, .nil, .inr (Bool.eq_false_iff.2 fun hin => ?_)⟩
    have hcells : 0 < cellsFrom s bank off := inBounds_iff_cellsFrom.1 hin
    omega
  | succ n ih =>
    obtain ⟨w, hw⟩ := bankRead_in (inBounds_iff_cellsFrom.2 (n.succ_pos.trans_eq hn.symm))
    by_cases hzero : hiByte w = 0 ∨ loByte w = 0
    · exact ⟨[], Nat.zero_le _, .nil, .inl ⟨w, hw, hzero⟩⟩
    · obtain ⟨ws, hlen, hws, hend⟩ := ih (off + 1) (by rw [cellsFrom_succ, hn, Nat.add_sub_cancel])
      refine ⟨w :: ws, Nat.succ_le_succ hlen, fullWords_cons.2 ⟨hw, not_or.1 hzero, hws⟩, ?_⟩
      rwa [List.length_cons, Nat.add_comm ws.length, ← Nat.add_assoc]

/-- The output of a string is bounded by the Words it passes over. -/
theorem exec_syscall_string_bounded {s : State} {bank : Bank} {l : Operand} {off : Word} {ws : List Word}
    (hl : getOperand s l = .ok 1) (hws : FullWords s bank off.toNat ws)
    (hend : (∃ w, bankRead s bank (off.toNat + ws.length) = .ok w ∧ (hiByte w = 0 ∨ loByte w = 0)) ∨
      inBounds s bank (off.toNat + ws.length) = false) :
    ∃ t bs, exec (.syscall l (.ref bank off)) s = .next t ∧ t.out = s.out ++ Config.diagPrefix ++ bs ∧
      bs.length ≤ 2 * ws.length + 1 := by
  have hbytes : (ws.flatMap fun u => [hiByte u, loByte u]).length = 2 * ws.length := by
    simp [List.length_flatMap, Nat.mul_comm]
  rcases hend with ⟨w, hread, hzero⟩ | hout
  · refine ⟨_, _, exec_syscall_terminated hl hws hread hzero, (List.append_assoc ..).symm, ?_⟩
    rw [List.length_append, hbytes]
    split <;> simp
  · exact ⟨_, _, exec_syscall_unterminated hl hws hout, (List.append_assoc ..).symm, by omega⟩

end Ends

/-- Settles O24: a string passes over at most the cells its bank has from the offset on (R153, R212). -/
theorem stringLengthIsBounded : Obligations.StringLengthIsBounded := by
  intro s bank off
  obtain ⟨ws, hlen, hws, hend⟩ := exists_fullWords s bank off.toNat
  have hcells : cellsFrom s bank off.toNat ≤ 4096 := cellsFrom_le
  refine ⟨ws, hlen.trans hcells, ?system, hws.reads, hws.full, ?ends, fun l hl => exec_syscall_string_bounded hl hws hend⟩
  case system =>
    rintro rfl
    exact hlen
  case ends =>
    refine hend.imp_left fun ⟨w, hread, hzero⟩ => ⟨?_, w, hread, hzero⟩
    have hin : inBounds s bank (off.toNat + ws.length) = true := by
      cases hb : inBounds s bank (off.toNat + ws.length) with
      | true => rfl
      | false => simp [bankRead_out hb] at hread
    have hleft := inBounds_iff_cellsFrom.1 hin
    rw [cellsFrom_add] at hleft
    omega

end Sys2Proof.Machine
end

section
/-! PROOFS. Fatal conditions and the step: how a condition is taken, what a step can do, its frame and the program counter over
it (`60_exceptions.md` R172, R176, R179, R180, `41_fetch_dispatch.md` R105 to R107). -/

namespace Sys2Proof

/-- A header's number zero-extends to itself (R172, C6). -/
theorem setWidth_ofNat_header {n : Nat} (h : n < 16) : (BitVec.ofNat 4 n).setWidth 8 = BitVec.ofNat 8 n := by
  apply BitVec.eq_of_toNat_eq
  simp only [BitVec.toNat_setWidth, BitVec.toNat_ofNat]
  omega

end Sys2Proof

namespace Sys2Proof.Machine

/-! ### The entry of a fatal condition -/

/-- Settles O28: the entry sets the run state and the halt cause, with the record of each kind, and nothing else (R180). -/
theorem faultEntryChangesNothingElse : Obligations.FaultEntryChangesNothingElse := by
  refine fun s c => ⟨fun hrun hf => step_fetch_fails hrun hf, ?_, State.raise_pc s c⟩
  cases c with
  | unknownMode side h =>
    exact congrArg (fun b => s.halt (.fault (.unknownMode s.pc side b))) (BitVec.ofNat_toNat 8 h).symm
  | unknownOpcode op => rfl
  | boundsViolation bank off => rfl
  | invalidWriteTarget => rfl
  | divisionByZero => rfl

/-- Settles O36: the code of a record is that of its kind (R176, D11). -/
theorem causeCodes : Obligations.CauseCodes := by
  refine ⟨rfl, rfl, fun s c => ?_⟩
  cases c <;> rfl

/-- The step at an unknown mode takes the decoder's condition, the header zero-extended in its record (R172). -/
theorem step_unknownMode {s : State} {ws : InstrWords} {side : Side} {n : Nat} (hrun : s.runState = .running)
    (hfetch : fetch s s.pc = .ok ws) (hn : n < 16) (hd : decode ws = .error (.unknownMode side (BitVec.ofNat 4 n))) :
    step s = .next (s.halt (.fault (.unknownMode s.pc side (BitVec.ofNat 8 n)))) := by
  rw [step_fetch_fails hrun (fetchDecode_decode_fails hfetch hd), ← setWidth_ofNat_header hn]
  rfl

/-- Settles O30: the decoder fails on the left header first, whatever the opcode byte, and the step takes its condition (R172,
D8). -/
theorem unknownModeHalts : Obligations.UnknownModeHalts := by
  intro s w0 w1 w2 hrun hfetch
  exact ⟨fun hleft => step_unknownMode hrun hfetch (Nat.mod_lt _ (by decide)) (decode_unknownLeftMode hleft),
    fun hleft hright => step_unknownMode hrun hfetch (Nat.mod_lt _ (by decide)) (decode_unknownRightMode hleft hright)⟩

/-! ### The step as a whole -/

/-- `move #v, R[0]` loads the accumulator and goes on with the next instruction (R121, R107). -/
theorem step_move_literal_acc {s : State} {v : Word} (hrun : s.runState = .running)
    (hf : fetchDecode s s.pc = .ok (.move (.literal v) (.ref .system 0))) :
    ∃ t, step s = .next t ∧ t.getReg 0 = v ∧ t.pc = s.pc + 1 ∧ t.runState = .running := by
  have he : exec (.move (.literal v) (.ref .system 0)) s = .next (s.setReg 0 v) := execMove_read (getOperand_literal s v)
  refine ⟨_, step_continues hrun hf he hrun, ?_, ?_, hrun⟩
  · rw [State.advance_getReg_ne _ (by decide), State.getReg_setReg_same]
  · rw [State.advance_pc, State.pc, State.getReg_setReg_ne s (by decide), State.pc]

/-- Settles O38: the step is the handler and, while the machine is still Running, the advance (R106). -/
theorem stepRunsDecodedInstruction : Obligations.StepRunsDecodedInstruction := by
  refine ⟨fun s t i hrun hf he => ⟨step_continues hrun hf he, fun ht => ?halts⟩, fun s c hrun hf => step_fetch_fails hrun hf,
    fun s => step_halted, ?moveFive⟩
  case halts => rw [step_runs hrun hf he, finishStep_halted ht]
  case moveFive =>
    exact step_move_literal_acc (s := State.reset.setPm [(0, 0x0203), (1, 0x0005)]) rfl (by decide)

/-- A Running machine has a next state: a condition of fetch or decode, or the end of a handler. -/
theorem step_of_running {s : State} (hrun : s.runState = .running) : ∃ t, step s = .next t := by
  cases hf : fetchDecode s s.pc with
  | error c => exact ⟨_, step_fetch_fails hrun hf⟩
  | ok i =>
    obtain ⟨u, hu, -⟩ := exec_effect i s
    exact ⟨_, step_runs hrun hf hu⟩

/-- Settles O39: every handler answers a next state, so only a Halted machine stops (R105). -/
theorem stepDefinedExactlyWhenRunning : Obligations.StepDefinedExactlyWhenRunning := by
  refine fun s => ⟨step_of_running, step_halted, fun r hr => ?_⟩
  cases hrun : s.runState with
  | halted => simp [step_halted hrun] at hr
  | running =>
    obtain ⟨t, ht⟩ := step_of_running hrun
    simp [ht] at hr

/-! ### What an instruction can do, by its kind -/

/-- The result of a handler with its instruction: `pass`, a `syscall` result, or a writer's result. -/
inductive ExecResult : Instr → State → State → Prop where
  | pass (l r : Operand) (s : State) : ExecResult (.pass l r) s s
  | syscall (l r : Operand) (s t : State) (h : exec (.syscall l r) s = .next t) : ExecResult (.syscall l r) s t
  | writer (i : Instr) (s t : State) (hop : 2 ≤ i.opcode.toNat) (h : WriterResult i.right s t) : ExecResult i s t

section ExecResults
variable {i : Instr} {s t : State}

theorem exec_result (h : exec i s = .next t) : ExecResult i s t := by
  cases i with
  | pass l r =>
    cases h
    exact .pass l r s
  | syscall l r => exact .syscall l r s t h
  | move l r => exact .writer _ s t (by simp [Instr.opcode]) (execMove_result h)
  | add l r => exact .writer _ s t (by simp [Instr.opcode]) (execBinary_result h)
  | subtract l r => exact .writer _ s t (by simp [Instr.opcode]) (execBinary_result h)
  | multiply l r => exact .writer _ s t (by simp [Instr.opcode]) (execBinary_result h)
  | divide l r => exact .writer _ s t (by simp [Instr.opcode]) (execBinary_result h)

/-- A location reads the same in states with the same two arrays. -/
theorem State.readLoc_congr (hpm : t.pm = s.pm) (hx : t.x = s.x) (k : Loc) : t.readLoc k = s.readLoc k := by
  cases k <;> simp only [State.readLoc, State.getReg_eq, hpm, hx]

theorem State.pc_congr (hx : t.x = s.x) : t.pc = s.pc := by
  rw [State.pc, State.pc, State.getReg_eq, State.getReg_eq, hx]

/-- A handler changes no cell but the one its right operand names (R37, R179). -/
theorem exec_readLoc (h : exec i s = .next t) {k : Loc}
    (hk : ∀ bank off, i.right = .ref bank off → k ≠ bankTarget s bank off.toNat) : t.readLoc k = s.readLoc k := by
  cases exec_result h with
  | pass l r => rfl
  | syscall l r =>
    obtain ⟨hpm, hx, -⟩ := syscallFrame l r s t h
    exact State.readLoc_congr hpm hx k
  | writer _ _ _ _ hw =>
    cases hw with
    | wrote bank off v t hr hone => exact hone.others k (hk bank off hr)
    | raised c => exact State.raise_readLoc s c k

/-- A handler that halts a Running machine has left both arrays alone (R151, R179). -/
theorem exec_arrays_of_halted (h : exec i s = .next t) (hrun : s.runState = .running) (ht : t.runState = .halted) :
    t.pm = s.pm ∧ t.x = s.x := by
  cases exec_result h with
  | pass l r => exact ⟨rfl, rfl⟩
  | syscall l r =>
    obtain ⟨hpm, hx, -⟩ := syscallFrame l r s t h
    exact ⟨hpm, hx⟩
  | writer _ _ _ _ hw =>
    cases hw with
    | wrote bank off v t hr hone => simp [hone.runState, hrun] at ht
    | raised c => exact ⟨rfl, rfl⟩

/-- A bank name of the program counter is `R[1]`. -/
theorem bankTarget_eq_pcReg {bank : Bank} {off : Word} (h : bankTarget s bank off.toNat = .reg 1) :
    Operand.ref bank off = .ref .system 1 := by
  cases bank with
  | system => rw [BitVec.eq_of_toNat_eq (Loc.reg.inj h : off.toNat = (1 : Word).toNat)]
  | stack => cases h
  | data => cases h

/-- A handler leaves the program counter unless it is a writer with `R[1]` on the right (R15). -/
theorem exec_pc (h : exec i s = .next t) (hi : i.right ≠ .ref .system 1 ∨ i.opcode = 0 ∨ i.opcode = 1) : t.pc = s.pc := by
  cases exec_result h with
  | pass l r => rfl
  | syscall l r =>
    obtain ⟨-, hx, -⟩ := syscallFrame l r s t h
    exact State.pc_congr hx
  | writer _ _ _ hop hw =>
    have hright : i.right ≠ .ref .system 1 := by
      refine hi.resolve_right fun hlow => ?_
      rcases hlow with h0 | h0 <;> rw [h0] at hop <;> exact absurd hop (by decide)
    cases hw with
    | wrote bank off v t hr hone => exact hone.getReg_ne fun hpc => hright (hr.trans (bankTarget_eq_pcReg hpc))
    | raised c => rfl

/-- A handler that ends in a fatal condition has changed nothing else, but for the output of a `syscall` with selector 1 (R179). -/
theorem exec_faulted (h : exec i s = .next t) (hnone : s.haltCause = .none) (ht : t.faulted) :
    t.runState = .halted ∧ t.pm = s.pm ∧ t.x = s.x ∧
      (t.out = s.out ∨ ∃ l r, i = .syscall l r ∧ getOperand s l = .ok 1 ∧ ∃ bs, t.out = s.out ++ bs) := by
  obtain ⟨r, hrec⟩ := ht
  cases exec_result h with
  | pass l r => simp [hnone] at hrec
  | syscall l r =>
    obtain ⟨hpm, hx, hgrows, hsel, hcause⟩ := syscallFrame l r s t h
    refine ⟨?_, hpm, hx, or_iff_not_imp_left.2 fun hout => ⟨l, r, rfl, hsel hout, hgrows⟩⟩
    rcases hcause with ⟨-, hkeep⟩ | ⟨-, -, hexit⟩ | ⟨_, _, -, -, hhalt, -⟩
    · simp [hkeep, hnone] at hrec
    · simp [hexit] at hrec
    · exact hhalt
  | writer _ _ _ _ hw =>
    cases hw with
    | wrote bank off v t hr hone => simp [hone.haltCause, hnone] at hrec
    | raised c => exact ⟨rfl, rfl, rfl, .inl rfl⟩

end ExecResults

/-! ### The frame of a step -/

/-- The end of a step writes at most the program counter. -/
theorem finishStep_readLoc (s : State) {k : Loc} (hk : k ≠ .reg 1) : (finishStep s).readLoc k = s.readLoc k := by
  cases hrun : s.runState with
  | running => rw [finishStep_running hrun, s.advance_wroteOnly.others k hk]
  | halted => rw [finishStep_halted hrun]

/-- Settles O46: the handler changes the cell its right operand names, the advance the program counter, and a condition of
fetch or decode neither. -/
theorem stepChangesOnlyTheDestination : Obligations.StepChangesOnlyTheDestination := by
  intro s t k hstep hpc hk
  obtain ⟨-, ⟨c, -, rfl⟩ | ⟨i, u, hf, hu, -, rfl⟩⟩ := step_cases hstep
  · exact State.raise_readLoc s c k
  · exact (finishStep_readLoc u hpc).trans (exec_readLoc hu fun bank off hr => hk i bank off hf hr)

/-- Settles O35: a fault of fetch or decode comes before the handler, and one of the handler before its write (R179). -/
theorem faultsArePrecise : Obligations.FaultsArePrecise := by
  intro s t hnone hstep ⟨r, hrec⟩
  obtain ⟨-, ⟨c, -, rfl⟩ | ⟨i, u, hf, hu, -, rfl⟩⟩ := step_cases hstep
  · exact ⟨rfl, rfl, rfl, .inl rfl⟩
  · rw [finishStep_haltCause] at hrec
    obtain ⟨hhalt, hpm, hx, hout⟩ := exec_faulted hu hnone ⟨r, hrec⟩
    rw [finishStep_halted hhalt]
    refine ⟨hhalt, hpm, hx, hout.imp_right ?_⟩
    rintro ⟨l, r, rfl, hl, hbs⟩
    exact ⟨l, r, hf, hl, hbs⟩

/-- Settles O40: the advance alone moves the program counter, unless the handler wrote `R[1]`; a handler that halts the machine
wrote nothing (R15, R107). -/
theorem programCounterRule : Obligations.ProgramCounterRule := by
  intro s t hstep
  obtain ⟨hrun, ⟨c, -, rfl⟩ | ⟨i, u, hf, hu, -, rfl⟩⟩ := step_cases hstep
  · exact ⟨fun _ => rfl, nofun⟩
  · rw [finishStep_runState]
    refine ⟨fun hhalt => ?_, fun hgoes => ⟨i, hf, fun hi => ?_⟩⟩
    · rw [finishStep_halted hhalt]
      exact State.pc_congr (exec_arrays_of_halted hu hrun hhalt).2
    · rw [finishStep_running hgoes, State.advance_pc, exec_pc hu hi, BitVec.toNat_add]
      rfl

end Sys2Proof.Machine
end

section
/-! PROOFS. The invariant of `Safety.lean`: it holds at reset, and every step keeps it (`10_state.md` R23, `60_exceptions.md` R171
to R176). -/

namespace Sys2Proof.Machine

/-! ### Conditions that are justified where they are raised -/

section Justified
variable {s t : State} {c : FatalCondition}

/-- What is in bounds is decided by the registers alone. -/
theorem inBounds_congr (hx : t.x = s.x) (b : Bank) (off : Nat) : inBounds t b off = inBounds s b off := by
  cases b <;> simp only [inBounds, bankTarget, State.getReg_eq, hx]

/-- A record is justified by the registers alone. -/
theorem FaultRecord.justified_congr (hx : t.x = s.x) {r : FaultRecord} (h : r.justified s) : r.justified t := by
  cases r with
  | boundsViolation pc ia bank off =>
    cases bank with
    | program => exact h
    | bank b =>
      obtain ⟨hia, hout, hle⟩ := h
      exact ⟨hia, (inBounds_congr hx b off).trans hout, hle⟩
  | unknownOpcode pc byte => exact h
  | unknownMode pc side byte => exact h
  | invalidWriteTarget pc => exact h
  | divisionByZero pc => exact h

/-- The record of a handler's condition is justified (R173 to R175). -/
theorem FatalCondition.FromHandler.justified (h : c.FromHandler s) (p : Word) : (c.record p).justified s := by
  rcases h with rfl | rfl | ⟨b, off, rfl, hout, hle⟩
  · trivial
  · trivial
  · exact ⟨rfl, hout, hle⟩

/-- The record of a decode error is justified (R171, R172). -/
theorem decodeFatal_justified {ws : InstrWords} {e : DecodeError} (h : decode ws = .error e) (p : Word) :
    ((decodeFatal e).record p).justified s := by
  have hmode (m : Header) (hm : 3 < m.toNat) : 4 ≤ (m.setWidth 8).toNat ∧ (m.setWidth 8).toNat ≤ 15 := by
    have hlt := header_toNat_lt m
    rw [BitVec.toNat_setWidth]
    omega
  rcases decodeFields_error h with ⟨hm, rfl⟩ | ⟨hm, rfl⟩ | ⟨hop, rfl⟩
  · exact hmode _ hm
  · exact hmode _ hm
  · exact hop

/-- The record of a condition of fetch or decode is justified (R171 to R173). -/
theorem fetchDecode_justified {p : Word} (h : fetchDecode s p = .error c) : (c.record p).justified s := by
  rcases fetchDecode_error h with ⟨a, rfl, hle, hge, hout⟩ | ⟨ws, e, -, hd, rfl⟩
  · exact ⟨rfl, hle, hge, hout⟩
  · exact decodeFatal_justified hd p

end Justified

/-! ### The invariant of Running and of Halted states -/

section Inv
variable {s t : State}

theorem State.inv_of_running (hpm : s.pm.wf) (hrun : s.runState = .running) (hnone : s.haltCause = .none) : s.Inv where
  memory := hpm
  cause := by simp [hrun, hnone]
  recordPc := by simp [hnone]
  recordJustified := by simp [hnone]

theorem State.inv_halt_exit (hpm : s.pm.wf) : (s.halt .exit).Inv where
  memory := hpm
  cause := by simp
  recordPc := by simp
  recordJustified := by simp

/-- A justified condition, taken after any output, leaves the invariant. -/
theorem State.inv_emit_raise (hpm : s.pm.wf) {c : FatalCondition} (hc : (c.record s.pc).justified s) (bs : List Byte) :
    ((s.emit bs).raise c).Inv where
  memory := hpm
  cause := by simp
  recordPc := by simp
  recordJustified := by
    intro r hr
    cases hr
    exact FaultRecord.justified_congr rfl hc

/-- The invariant says of a Running machine that it has no halt cause. -/
theorem State.Inv.haltCause_eq_none (h : s.Inv) (hrun : s.runState = .running) : s.haltCause = .none := h.cause.1 hrun

/-- The advance of a Running machine keeps the invariant. -/
theorem State.Inv.finishStep (h : s.Inv) (hrun : s.runState = .running) : (finishStep s).Inv :=
  State.inv_of_running (by simpa using h.memory) (by simpa using hrun) (by simpa using h.haltCause_eq_none hrun)

/-- Every effect of a handler on a Running machine, with the end of the step after it, keeps the invariant. -/
theorem Effect.inv_finishStep (h : Effect s t) (hs : s.Inv) (hrun : s.runState = .running) : (Machine.finishStep t).Inv := by
  have hnone := hs.haltCause_eq_none hrun
  cases h with
  | none => exact hs.finishStep hrun
  | write l v t hw =>
    obtain ⟨hrun', hcause, -⟩ := State.writeLoc_frame hw
    have ht : t.Inv := State.inv_of_running (State.writeLoc_wf hw hs.memory) (hrun'.trans hrun) (hcause.trans hnone)
    exact ht.finishStep (hrun'.trans hrun)
  | emits bs => exact State.Inv.finishStep (s := s.emit bs) (State.inv_of_running hs.memory hrun hnone) hrun
  | exits =>
    rw [finishStep_halted rfl]
    exact State.inv_halt_exit hs.memory
  | raises bs c hc =>
    rw [finishStep_halted rfl]
    exact State.inv_emit_raise hs.memory (hc.justified s.pc) bs

end Inv

/-- Settles O43: a condition of fetch or decode is justified, and every effect of a handler keeps the invariant (R23, R171 to
R176). -/
theorem stepKeepsInvariant : Obligations.StepKeepsInvariant := by
  intro s t hs hstep
  obtain ⟨hrun, ⟨c, hf, rfl⟩ | ⟨i, u, -, -, heffect, rfl⟩⟩ := step_cases hstep
  · have hraise := State.inv_emit_raise hs.memory (fetchDecode_justified hf) []
    rwa [State.emit_nil] at hraise
  · exact heffect.inv_finishStep hs hrun

/-- Settles O44: at reset memory is empty, and the machine is Running without a cause. -/
theorem resetHasInvariant : Obligations.ResetHasInvariant := State.inv_of_running State.reset_pm_wf rfl rfl

end Sys2Proof.Machine
end

section
/-! PROOFS. The output is never read (`10_state.md` R22): the machine with other bytes already emitted takes the same step. -/

namespace Sys2Proof.Machine

/-- The machine with other bytes emitted so far. -/
def State.withOut (s : State) (o : List Byte) : State := { s with out := o }

/-! ### What does not see the output -/

section Reads
variable (s : State) (o : List Byte)

@[simp] theorem State.withOut_readLoc (k : Loc) : (s.withOut o).readLoc k = s.readLoc k := by
  cases k <;> rfl

@[simp] theorem bankTarget_withOut (b : Bank) (off : Nat) : bankTarget (s.withOut o) b off = bankTarget s b off := by
  cases b <;> rfl

@[simp] theorem bankRead_withOut (b : Bank) (off : Nat) : bankRead (s.withOut o) b off = bankRead s b off := by
  simp only [bankRead, bankTarget_withOut, State.withOut_readLoc]

@[simp] theorem getOperand_withOut (op : Operand) : getOperand (s.withOut o) op = getOperand s op := by
  cases op with
  | literal v => rfl
  | ref b off => exact bankRead_withOut s o b off.toNat

theorem stringFrom_withOut (b : Bank) (n off : Nat) : stringFrom (s.withOut o) b n off = stringFrom s b n off := by
  induction n generalizing off with
  | zero => rfl
  | succ n ih => simp only [stringFrom, bankRead_withOut, ih]

@[simp] theorem stringAt_withOut (b : Bank) (off : Nat) : stringAt (s.withOut o) b off = stringAt s b off := by
  simp only [stringAt, cellsFrom, bankTarget_withOut, stringFrom_withOut]

/-! ### Writes go through it -/

theorem State.writeLoc_withOut (k : Loc) (v : Word) :
    (s.withOut o).writeLoc k v = (s.writeLoc k v).map (·.withOut o) := by
  cases k <;> simp only [State.writeLoc] <;> split <;> rfl

theorem setOperand_withOut {t : State} {r : Operand} {v : Word} (h : setOperand s r v = .ok t) :
    setOperand (s.withOut o) r v = .ok (t.withOut o) ∧ t.out = s.out := by
  obtain ⟨b, off, rfl, hw⟩ := setOperand_ok h
  refine ⟨bankWrite_eq_ok.2 ?_, (State.writeLoc_frame hw).2.2⟩
  rw [bankTarget_withOut, State.writeLoc_withOut, hw, Option.map_some]

theorem setOperand_withOut_fails {c : FatalCondition} {r : Operand} {v : Word} (h : setOperand s r v = .error c) :
    setOperand (s.withOut o) r v = .error c := by
  cases r with
  | literal w => exact h
  | ref b off =>
    rw [setOperand_ref, bankWrite_eq_error] at h ⊢
    simpa only [inBounds, bankTarget_withOut] using h

end Reads

/-! ### Two machines that emit the same -/

/-- The outcomes `x` of a machine and `y` of the same machine with the output `o`: next states that differ in the output alone,
with the same bytes emitted in both. -/
def EmitTheSame (s : State) (o : List Byte) (x y : Host.Outcome State Fault Refusal) : Prop :=
  ∃ t bs, x = .next t ∧ t.out = s.out ++ bs ∧ y = .next (t.withOut (o ++ bs))

section EmitTheSame
variable (s : State) (o : List Byte)

/-- An outcome that emits nothing. -/
theorem EmitTheSame.of_out_eq {s t : State} (h : t.out = s.out) : EmitTheSame s o (.next t) (.next (t.withOut o)) :=
  ⟨t, [], rfl, by rw [h, List.append_nil], by rw [List.append_nil]⟩

theorem emitTheSame_raise (c : FatalCondition) :
    EmitTheSame s o (.next (s.raise c)) (.next ((s.withOut o).raise c)) := .of_out_eq o (t := s.raise c) rfl

theorem emitTheSame_set (r : Operand) (v : Word) :
    EmitTheSame s o (complete s (setOperand s r v)) (complete (s.withOut o) (setOperand (s.withOut o) r v)) := by
  cases h : setOperand s r v with
  | ok t =>
    obtain ⟨ht, hout⟩ := setOperand_withOut s o h
    rw [ht]
    exact .of_out_eq o hout
  | error c =>
    rw [setOperand_withOut_fails s o h]
    exact emitTheSame_raise s o c

theorem emitTheSame_execMove (l r : Operand) : EmitTheSame s o (execMove l r s) (execMove l r (s.withOut o)) := by
  cases hl : getOperand s l with
  | error c =>
    rw [execMove_left_fails hl, execMove_left_fails (by rwa [getOperand_withOut])]
    exact emitTheSame_raise s o c
  | ok v =>
    rw [execMove_read hl, execMove_read (by rwa [getOperand_withOut])]
    exact emitTheSame_set s o r v

theorem emitTheSame_execBinary (op : Word → Word → Except FatalCondition Word) (l r : Operand) :
    EmitTheSame s o (execBinary op l r s) (execBinary op l r (s.withOut o)) := by
  have hget := getOperand_withOut s o
  cases hr : getOperand s r with
  | error c =>
    rw [execBinary_right_fails hr, execBinary_right_fails ((hget r).trans hr)]
    exact emitTheSame_raise s o c
  | ok a =>
    cases hl : getOperand s l with
    | error c =>
      rw [execBinary_left_fails hr hl, execBinary_left_fails ((hget r).trans hr) ((hget l).trans hl)]
      exact emitTheSame_raise s o c
    | ok b =>
      cases hv : op a b with
      | error c =>
        rw [execBinary_op_fails hr hl hv, execBinary_op_fails ((hget r).trans hr) ((hget l).trans hl) hv]
        exact emitTheSame_raise s o c
      | ok v =>
        rw [execBinary_read hr hl hv, execBinary_read ((hget r).trans hr) ((hget l).trans hl) hv]
        exact emitTheSame_set s o r v

/-- Selector 1 emits bytes that do not depend on those before them. -/
theorem emitTheSame_output (r : Operand) :
    EmitTheSame s o (.next (output s r)) (.next (output (s.withOut o) r)) := by
  cases r with
  | literal v => exact ⟨_, [loByte v], rfl, rfl, rfl⟩
  | ref b off =>
    simp only [output, stringAt_withOut]
    split
    · exact ⟨_, _, rfl, rfl, rfl⟩
    · exact ⟨_, _, rfl, rfl, rfl⟩

theorem emitTheSame_execSyscall (l r : Operand) :
    EmitTheSame s o (execSyscall l r s) (execSyscall l r (s.withOut o)) := by
  cases hl : getOperand s l with
  | error c =>
    rw [execSyscall_left_fails hl, execSyscall_left_fails (by rwa [getOperand_withOut])]
    exact emitTheSame_raise s o c
  | ok sel =>
    rw [execSyscall_read hl, execSyscall_read ((getOperand_withOut s o l).trans hl)]
    split
    · exact .of_out_eq o (t := s.halt .exit) rfl
    · split
      · exact emitTheSame_output s o r
      · exact .of_out_eq o rfl

theorem emitTheSame_exec (i : Instr) : EmitTheSame s o (exec i s) (exec i (s.withOut o)) := by
  cases i with
  | pass l r => exact .of_out_eq o rfl
  | syscall l r => exact emitTheSame_execSyscall s o l r
  | move l r => exact emitTheSame_execMove s o l r
  | add l r => exact emitTheSame_execBinary s o _ l r
  | subtract l r => exact emitTheSame_execBinary s o _ l r
  | multiply l r => exact emitTheSame_execBinary s o _ l r
  | divide l r => exact emitTheSame_execBinary s o _ l r

theorem finishStep_withOut (t : State) : finishStep (t.withOut o) = (finishStep t).withOut o := by
  cases ht : t.runState with
  | running => rw [finishStep_running ht, finishStep_running (s := t.withOut o) ht]; rfl
  | halted => rw [finishStep_halted ht, finishStep_halted (s := t.withOut o) ht]

theorem emitTheSame_step {s : State} (hrun : s.runState = .running) : EmitTheSame s o (step s) (step (s.withOut o)) := by
  have hrun' : (s.withOut o).runState = .running := hrun
  have hfetch : fetchDecode (s.withOut o) (s.withOut o).pc = fetchDecode s s.pc := rfl
  cases hf : fetchDecode s s.pc with
  | error c =>
    rw [step_fetch_fails hrun hf, step_fetch_fails hrun' (hfetch.trans hf)]
    exact emitTheSame_raise s o c
  | ok i =>
    obtain ⟨t, bs, ht, hout, ht'⟩ := emitTheSame_exec s o i
    rw [step_runs hrun hf ht, step_runs hrun' (hfetch.trans hf) ht', finishStep_withOut]
    exact ⟨_, bs, rfl, by rw [finishStep_out, hout], rfl⟩

end EmitTheSame

/-- Settles O47: nothing that a step reads depends on the output, and what it emits is appended (R22). -/
theorem outputIsNeverRead : Obligations.OutputIsNeverRead := by
  refine fun s o => ⟨fun t hstep => ?_, fun f hfault => ?_⟩
  · obtain ⟨u, bs, hu, hout, hu'⟩ := emitTheSame_step o (step_cases hstep).1
    cases hstep.symm.trans hu
    exact ⟨bs, hout, hu'⟩
  · change step (s.withOut o) = .fault f
    cases hrun : s.runState with
    | running =>
      obtain ⟨t, ht⟩ := step_of_running hrun
      simp [ht] at hfault
    | halted =>
      rw [step_halted hrun] at hfault
      exact (step_halted (s := s.withOut o) hrun).trans hfault

end Sys2Proof.Machine
end

section
/-! PROOFS. Runs of many steps: the `pass` sled of zeroed memory, and the host's load, image, run and the life of a
machine (`41_fetch_dispatch.md` R110, R112, `70_reset_and_hazards.md` R201 to R207). -/

namespace Sys2Proof.Machine

/-! ### The sled of zeroed memory -/

/-- A Running machine without a cause whose program memory is all zero (R112). -/
structure OnSled (s : State) : Prop where
  running : s.runState = .running
  noCause : s.haltCause = .none
  zero : ∀ a, a < Config.pmWords → s.pm.read a = 0

section Sled
variable {s : State}

/-- A register written with what it holds leaves the state. -/
theorem State.setReg_getReg_self (s : State) (i : Fin Config.srWords) : s.setReg i (s.getReg i) = s := by
  cases s
  simp [State.setReg, State.getReg_eq]

theorem OnSled.setReg (h : OnSled s) (i : Fin Config.srWords) (v : Word) : OnSled (s.setReg i v) :=
  ⟨h.running, h.noCause, h.zero⟩

/-- Up to `MAX_PC` the step on the sled is that of a `pass`. -/
theorem OnSled.step (h : OnSled s) (hpc : s.pc.toNat ≤ Config.maxPc) : step s = .next s.advance := by
  have hslot : 3 * s.pc.toNat + 2 < Config.pmWords := by
    have := Config.maxPc_eq; have := Config.pmWords_eq
    omega
  have hfetch : fetch s s.pc = .ok ⟨0, 0, 0⟩ := by
    rw [fetch_in hpc, h.zero _ (by omega), h.zero _ (by omega), h.zero _ hslot]
  exact step_pass h.running (fetchDecode_ok hfetch (by decide : decode ⟨0, 0, 0⟩ = .ok (.pass (.literal 0) (.literal 0))))

theorem OnSled.not_faulted (h : OnSled s) : ¬ s.faulted := by
  rintro ⟨r, hr⟩
  simp [h.noCause] at hr

/-- Below 65535 the advance adds 1 without a wrap. -/
theorem State.advance_pc_toNat (h : s.pc.toNat < 65535) : s.advance.pc.toNat = s.pc.toNat + 1 := by
  rw [State.advance_pc, BitVec.toNat_add, Config.two_pow_wordBits]
  exact Nat.mod_eq_of_lt (Nat.succ_lt_succ h)

/-- `n` steps before index 1365 the machine takes `n` safe steps of `pass` to it. -/
theorem OnSled.run (h : OnSled s) {n : Nat} (hn : s.pc.toNat + n = 1365) :
    Host.Core.run Sys2Proof.core n s = .next (s.setReg 1 1365) ∧ s.safeFor n := by
  induction n generalizing s with
  | zero =>
    have hpc : s.getReg 1 = 1365 := BitVec.eq_of_toNat_eq hn
    have hself : s.setReg 1 1365 = s := hpc ▸ s.setReg_getReg_self 1
    exact ⟨congrArg _ hself.symm, h.not_faulted⟩
  | succ n ih =>
    have hstep := h.step (by have := Config.maxPc_eq; omega)
    have hnext : s.advance.pc.toNat + n = 1365 := by
      rw [State.advance_pc_toNat (by omega)]
      omega
    obtain ⟨hrun, hsafe⟩ := ih (h.setReg _ _ : OnSled s.advance) hnext
    refine ⟨?_, h.not_faulted, .inr ⟨_, hstep, hsafe⟩⟩
    rw [core_run_succ, hstep]
    exact hrun.trans (congrArg _ (s.setReg_setReg 1 (s.pc + 1) 1365))

end Sled

/-- Settles O48: each step up to index 1364 is a `pass`, and the fetch at 1365 meets address 4096 (R112). -/
theorem zeroedMemoryIsAPassSled : Obligations.ZeroedMemoryIsAPassSled := by
  intro s hrun hnone hzero hpc
  have hsled : OnSled s := ⟨hrun, hnone, hzero⟩
  obtain ⟨hsteps, hsafe⟩ := hsled.run (Nat.add_sub_of_le hpc)
  refine ⟨hsteps, hsafe, ?_⟩
  have hend : (s.setReg 1 1365).pc = 1365 := State.setReg_pcReg_pc s 1365
  have hfetch := fetchDecode_fetch_fails (fetch_straddling (s := s.setReg 1 1365) (p := 1365) rfl)
  rw [step_fetch_fails (s := s.setReg 1 1365) hrun (hend.symm ▸ hfetch), State.raise, hend]
  rfl

/-! ### The load -/

/-- Settles O49: a program that fits is stored from address 0, in canonical form, with the two bases (R203, D18). -/
theorem loadPlacesTheProgram : Obligations.LoadPlacesTheProgram := by
  refine fun ws ds ss => ⟨fun hlong => if_neg (Nat.not_le.2 hlong), fun hfits => ?_⟩
  have hload : State.load ws ds ss = some _ := State.load_eq_some.2 ⟨hfits, rfl⟩
  refine ⟨_, hload, ?canonical, fun a ha => State.load_readLoc_program hload ha, fun a hbeyond ha => ?beyond,
    State.load_getReg hload _, State.load_getReg hload _, fun i h2 h3 => ?otherRegister, rfl, rfl, rfl⟩
  case canonical => exact Memory.wf_writeFrom Memory.wf_nil (by rwa [Nat.zero_add])
  case beyond => rw [State.readLoc_pm ha, State.load_pm_read hload, List.getD_eq_default _ _ hbeyond]
  case otherRegister => rw [State.load_getReg hload, if_neg h2, if_neg h3]

/-! ### The image -/

section Image
variable {body : List Byte}

/-- Two bytes make a Word, and an odd last one makes one too. -/
theorem packBytes_length (body : List Byte) : (packBytes body).length = (body.length + 1) / 2 := by
  induction body using packBytes.induct with
  | case1 => rfl
  | case2 b => simp [packBytes]
  | case3 b d c ih =>
    simp only [packBytes, List.length_cons, ih]
    omega

/-- Word `k` is bytes `2k` and `2k + 1`, a missing last byte counting as 0 (R205). -/
theorem packBytes_getElem {k : Nat} (hk : k < (packBytes body).length) (h : 2 * k < body.length) :
    (packBytes body)[k] = wordOfBytes body[2 * k] (body.getD (2 * k + 1) 0) := by
  induction body using packBytes.induct generalizing k with
  | case1 => cases h
  | case2 b =>
    obtain rfl : k = 0 := by simpa using h
    rfl
  | case3 b d c ih =>
    cases k with
    | zero => rfl
    | succ k => exact ih (Nat.lt_of_succ_lt_succ hk) (by simpa [Nat.mul_add] using h)

/-- An image is refused exactly when it is shorter than 2 bytes or holds more than 8192 program bytes (D19). -/
theorem parseImage_eq_none {bytes : List Byte} :
    parseImage bytes = none ↔ bytes.length < 2 ∨ 8194 < bytes.length := by
  match bytes with
  | [] => simp [parseImage]
  | [b] => simp [parseImage]
  | b0 :: b1 :: body =>
    have := Config.pmWords_eq
    simp only [parseImage, ite_eq_right_iff, reduceCtorEq, imp_false, List.length_cons]
    omega

/-- What an image that is not refused holds (R205). -/
theorem parseImage_eq_some {b0 b1 : Byte} {im : Image} (h : parseImage (b0 :: b1 :: body) = some im) :
    body.length ≤ 8192 ∧ im = ⟨wordOfBytes b0 b1, packBytes body, BitVec.ofNat 16 (packBytes body).length⟩ := by
  simp only [parseImage] at h
  split at h
  · exact ⟨‹_›, (Option.some.inj h).symm⟩
  · cases h

end Image

/-- Settles O50: Words and bytes correspond by `packBytes_getElem`, and at most 4096 Words are counted without a wrap (R205,
D19). -/
theorem imageRoundTrip : Obligations.ImageRoundTrip := by
  refine ⟨fun bytes => parseImage_eq_none, fun b0 b1 body im him => ?_⟩
  obtain ⟨hlen, rfl⟩ := parseImage_eq_some him
  refine ⟨wordOfBytes_toNat b0 b1, packBytes_length body, ?stackStart, fun k hk h2 => ?pair, fun k hk h1 => ?odd⟩
  case stackStart =>
    rw [BitVec.toNat_ofNat, Config.two_pow_wordBits]
    exact Nat.mod_eq_of_lt (by rw [packBytes_length]; omega)
  case pair => rw [packBytes_getElem hk (by omega), wordOfBytes_toNat, List.getD_eq_getElem _ _ h2]
  case odd =>
    rw [packBytes_getElem hk (by omega), wordOfBytes_toNat, List.getD_eq_default _ _ h1.ge]
    exact Nat.add_zero _

/-! ### The run -/

/-- Some number of steps within the fuel reaches `t`, and `t` is Halted. -/
def ReachesHalt (n : Nat) (s t : State) : Prop :=
  ∃ k, k ≤ n ∧ Host.Core.run Sys2Proof.core k s = .next t ∧ t.runState = .halted

section Run
variable {n : Nat} {s t u : State}

/-- A Halted machine takes no step: it reaches itself alone. -/
theorem reachesHalt_of_halted (hs : s.runState = .halted) : ReachesHalt n s t ↔ s = t := by
  constructor
  · rintro ⟨k, -, hk, -⟩
    cases k with
    | zero => exact Host.Outcome.next.inj hk
    | succ k =>
      rw [core_run_succ, step_halted hs] at hk
      cases hk
  · rintro rfl
    exact ⟨0, Nat.zero_le n, rfl, hs⟩

theorem not_reachesHalt_zero (hs : s.runState = .running) : ¬ ReachesHalt 0 s t := by
  rintro ⟨k, hk, hrun, ht⟩
  obtain rfl := Nat.le_zero.1 hk
  cases hrun
  simp [hs] at ht

/-- A machine that takes a step reaches what the next state reaches with the fuel left. -/
theorem reachesHalt_succ (h : step s = .next u) : ReachesHalt (n + 1) s t ↔ ReachesHalt n u t := by
  have hrun (k : Nat) : Host.Core.run Sys2Proof.core (k + 1) s = Host.Core.run Sys2Proof.core k u := by
    rw [core_run_succ, h]
  constructor
  · rintro ⟨k, hk, hto, ht⟩
    cases k with
    | zero =>
      cases hto
      simp [(step_cases h).1] at ht
    | succ k => exact ⟨k, Nat.le_of_succ_le_succ hk, (hrun k).symm.trans hto, ht⟩
  · rintro ⟨k, hk, hto, ht⟩
    exact ⟨k + 1, Nat.succ_le_succ hk, (hrun k).trans hto, ht⟩

/-- The run answers exactly the Halted state that some number of steps within the fuel reaches (R110). -/
theorem runToHalt_eq_some : runToHalt n s = some t ↔ ReachesHalt n s t := by
  induction n generalizing s with
  | zero =>
    cases hs : s.runState with
    | halted => rw [runToHalt_halted hs, reachesHalt_of_halted hs, Option.some_inj]
    | running => simp [runToHalt_zero hs, not_reachesHalt_zero hs]
  | succ n ih =>
    cases hs : s.runState with
    | halted => rw [runToHalt_halted hs, reachesHalt_of_halted hs, Option.some_inj]
    | running =>
      obtain ⟨u, hu⟩ := step_of_running hs
      rw [runToHalt_succ hu, ih, reachesHalt_succ hu]

/-- A result is a snapshot exactly when its five fields are the state's (R207). -/
theorem snapshot_eq_iff {f : FinalState} : t.snapshot = f ↔
    f.accumulator = t.getReg 0 ∧ f.registers = t.x ∧ f.memory = t.pm ∧ f.haltCause = t.haltCause ∧ f.out = t.out := by
  cases f
  simp only [State.snapshot, FinalState.mk.injEq, eq_comm]

end Run

/-- Settles O51: the run answers the snapshot of the Halted state that its steps reach (R110, R207). -/
theorem runReportsTheHaltedState : Obligations.RunReportsTheHaltedState := by
  intro n s f
  rw [run, Option.map_eq_some_iff]
  constructor
  · rintro ⟨t, ht, hf⟩
    obtain ⟨k, hk, hrun, hhalt⟩ := runToHalt_eq_some.1 ht
    exact ⟨k, t, hk, hrun, hhalt, snapshot_eq_iff.1 hf⟩
  · rintro ⟨k, t, hk, hrun, hhalt, hf⟩
    exact ⟨t, runToHalt_eq_some.2 ⟨k, hk, hrun, hhalt⟩, snapshot_eq_iff.2 hf⟩

/-! ### The host's moves -/

section Life
variable {l l' : Life}

/-- A load is had in the fresh stage alone (R201, D18). -/
theorem Life.load_eq_some {ws : List Word} {ds ss : Word} :
    l.load ws ds ss = some l' ↔ l = .fresh ∧ ∃ s, State.load ws ds ss = some s ∧ l' = .loaded s := by
  cases l <;> simp [Life.load, eq_comm]

/-- A run is had in the loaded stage alone, and ends in the Halted state reached. -/
theorem Life.run_eq_some {n : Nat} : l.run n = some l' ↔ ∃ s t, l = .loaded s ∧ l' = .ended t ∧ ReachesHalt n s t := by
  cases l with
  | fresh => simp [Life.run]
  | ended s => simp [Life.run]
  | loaded s =>
    rw [Life.run, Option.map_eq_some_iff]
    constructor
    · rintro ⟨t, ht, rfl⟩
      exact ⟨s, t, rfl, rfl, runToHalt_eq_some.1 ht⟩
    · rintro ⟨_, t, ⟨⟩, rfl, hreach⟩
      exact ⟨t, runToHalt_eq_some.2 hreach, rfl⟩

/-- A result is had in the ended stage alone. -/
theorem Life.result_eq_some {f : FinalState} : l.result = some f ↔ ∃ t, l = .ended t ∧ f = t.snapshot := by
  cases l <;> simp [Life.result, eq_comm]

end Life

/-- Settles O53: each move is had of one stage of the life alone (R201, R202, D18, U13). -/
theorem hostMovesFollowTheLife : Obligations.HostMovesFollowTheLife := by
  refine ⟨fun l => ⟨rfl, rfl⟩, fun l l' ws ds ss => Life.load_eq_some, fun l l' n => ?_, fun l f => Life.result_eq_some⟩
  rw [Life.run_eq_some]
  simp only [ReachesHalt, exists_and_left]

end Sys2Proof.Machine
end
